-- ==== Sys2Proof/Word.lean ====
section
/-! DEFINITION. The words and names every later file uses: bytes, groups, tokens, the operations of the two
agents and the bit-level formats (00_scope.md section 6, 30_encoding.md). -/

namespace Sys2Proof

/-- A byte, 8 bits (R50). -/
abbrev Byte := BitVec 8

/-- A 7-bit group, "one chunk of a value's bit pattern" (R50). -/
abbrev Group := BitVec 7

/-- The token transferred on the `in` channel: a byte or the end-of-sequence mark (R36, R52). -/
inductive Token where
  | byte (b : Byte)
  | eos
  deriving DecidableEq, Repr

/-- The operations of the encoder, one a cycle (R58). -/
inductive EncOp where
  | reset | idle | load | stall | emit | emitl
  deriving DecidableEq, Repr

/-- The operations of the decoder, one a cycle (R59). -/
inductive DecOp where
  | reset | wait | cont | term | eos | hold | retire
  deriving DecidableEq, Repr

/-- The formats of the opcode table: the select words ES (R58) and DS (R59), the token TOK (R52), the varint
byte VB (R50) and the command CMD of `W` bits (R54). -/
inductive Format where
  | es | ds | tok | vb
  | cmd (W : Nat)
  deriving DecidableEq, Repr

/-- How many bits a word of the format has. -/
def Format.bits : Format → Nat
  | .es => 5
  | .ds => 6
  | .tok => 9
  | .vb => 8
  | .cmd W => W

end Sys2Proof
end

