-- ==== Sys2Proof/Config.lean ====
section
/-! DEFINITION. The two parameters of the hardware and the constants that follow from them (00_scope.md
R3, R4, R5). The spec leaves no value undefined after an operation, so there is no free value here. -/

namespace Sys2Proof

/-- The complete list of parameters: `W`, the width of the value (R3), and `SIGNED` (R4). -/
structure Config where
  W : Nat
  signed : Bool
  deriving DecidableEq, Repr

/-- The widths the rules hold for: "A model must refuse `W < 8`" (R3). -/
def Config.supported (c : Config) : Bool := decide (8 ≤ c.W)

/-- `NG = ceil(W / 7)`, the number of 7-bit groups of a `W`-bit value (R5). -/
def ng (W : Nat) : Nat := (W + 6) / 7

/-- `IW = ceil(log2(NG + 1))`, the width in bits of `dec_idx` (R5). -/
def iw (W : Nat) : Nat := Nat.log2 (ng W) + 1

/-- The hardware as instantiated: `SIGNED = 0` (R4). DESIGN CHOICE, log entry 3: `W = 16`, one of the four
widths the document names (R3). -/
def Config.here : Config := { W := 16, signed := false }

end Sys2Proof
end

