-- ==== Sys2Proof/Syntax.lean ====
section
/-! DEFINITION. The instructions: one constructor for each row of spec/opcode_table.json. -/

namespace Sys2Proof

/-- An instruction of this hardware is an operation one agent performs in one cycle (R58, R59), or what the
environment presents on a channel for one cycle: a command (R54), a token (R53) or a varint byte (R50). -/
inductive Instr where
  /-- ENCODE, format CMD: the request to encode the value `v` (R54, R63, R70). -/
  | encode (v : Nat)
  /-- ENC.RESET (R140). -/
  | encReset
  /-- ENC.IDLE (R71). -/
  | encIdle
  /-- ENC.LOAD (R72). -/
  | encLoad
  /-- ENC.STALL (R73). -/
  | encStall
  /-- ENC.EMIT (R74). -/
  | encEmit
  /-- ENC.EMITL (R75). -/
  | encEmitl
  /-- DEC.RESET (R140). -/
  | decReset
  /-- DEC.WAIT (R94). -/
  | decWait
  /-- DEC.CONT (R96). -/
  | decCont
  /-- DEC.TERM (R97). -/
  | decTerm
  /-- DEC.EOS (R98). -/
  | decEos
  /-- DEC.HOLD (R101). -/
  | decHold
  /-- DEC.RETIRE (R99). -/
  | decRetire
  /-- TOK.CONT: the token of a continuation byte with group `g` (R53, R96). -/
  | tokCont (g : Group)
  /-- TOK.TERM: the token of a terminating byte with group `g` (R53, R97). -/
  | tokTerm (g : Group)
  /-- TOK.EOS: the end-of-sequence mark; its other eight bits are ignored (R53, R98). -/
  | tokEos
  /-- VB.CONT: the continuation byte with group `g` (R50). -/
  | vbCont (g : Group)
  /-- VB.TERM: the terminating byte with group `g` (R50). -/
  | vbTerm (g : Group)
  deriving DecidableEq, Repr

end Sys2Proof
end

