-- ==== Sys2Proof/WellFormed.lean ====
section
/-! DEFINITION. Which instructions are instructions of the hardware with values of `W` bits. -/

namespace Sys2Proof

/-- A command value is exactly `W` bits: "the whole of `cmd_value` is the one operand" (R54, R37). Groups have
their seven bits by their type, and no other instruction has an operand (R56). -/
def Instr.operandFits (W : Nat) : Instr → Bool
  | .encode v => decide (v < 2 ^ W)
  | .encReset | .encIdle | .encLoad | .encStall | .encEmit | .encEmitl => true
  | .decReset | .decWait | .decCont | .decTerm | .decEos | .decHold | .decRetire => true
  | .tokCont _ | .tokTerm _ | .tokEos => true
  | .vbCont _ | .vbTerm _ => true

/-- Well-formed: the width is one the rules hold for (R3) and the operand fits it (R54). -/
def Instr.wellFormed (W : Nat) (i : Instr) : Bool := decide (8 ≤ W) && i.operandFits W

end Sys2Proof
end

