-- ==== Sys2Proof/Decode.lean ====
section
/-! DEFINITION. Reading the five formats of 30_encoding.md, each total on its words, and after it the
encoder. The tables of R58 and R59 stand as lists of mask and match rows, and the two select decoders are
written from the bits; that they agree is a statement for the provers (Obligations.lean). -/

namespace Sys2Proof

/-- The instruction that is this encoder operation. -/
def EncOp.instr : EncOp → Instr
  | .reset => .encReset
  | .idle => .encIdle
  | .load => .encLoad
  | .stall => .encStall
  | .emit => .encEmit
  | .emitl => .encEmitl

/-- The instruction that is this decoder operation. -/
def DecOp.instr : DecOp → Instr
  | .reset => .decReset
  | .wait => .decWait
  | .cont => .decCont
  | .term => .decTerm
  | .eos => .decEos
  | .hold => .decHold
  | .retire => .decRetire

/-- A row of a select table: the operation, its mask and its match value (R61). -/
structure SelectRow (n : Nat) (α : Type) where
  op : α
  mask : BitVec n
  want : BitVec n

/-- "A value `w` of a select word matches a row when `w & mask = match`" (R61). -/
def SelectRow.hits {n : Nat} {α : Type} (r : SelectRow n α) (w : BitVec n) : Bool := w &&& r.mask == r.want

/-- The table of R58, pattern `rst st cv or fin`. -/
def esRows : List (SelectRow 5 EncOp) :=
  [⟨.reset, 0x10#5, 0x10#5⟩, ⟨.idle, 0x1C#5, 0x00#5⟩, ⟨.load, 0x1C#5, 0x04#5⟩,
   ⟨.stall, 0x1A#5, 0x08#5⟩, ⟨.emit, 0x1B#5, 0x0A#5⟩, ⟨.emitl, 0x1B#5, 0x0B#5⟩]

/-- The table of R59, pattern `rst st iv E C rr`. -/
def dsRows : List (SelectRow 6 DecOp) :=
  [⟨.reset, 0x20#6, 0x20#6⟩, ⟨.wait, 0x38#6, 0x00#6⟩, ⟨.cont, 0x3E#6, 0x0A#6⟩, ⟨.term, 0x3E#6, 0x08#6⟩,
   ⟨.eos, 0x3C#6, 0x0C#6⟩, ⟨.hold, 0x31#6, 0x10#6⟩, ⟨.retire, 0x31#6, 0x11#6⟩]

/-- The encoder operation a select word ES selects (R58). -/
def decodeEs (w : BitVec 5) : EncOp :=
  if w.getLsbD 4 then .reset
  else if w.getLsbD 3 then
    if w.getLsbD 1 then
      if w.getLsbD 0 then .emitl else .emit
    else .stall
  else if w.getLsbD 2 then .load else .idle

/-- The decoder operation a select word DS selects (R59). -/
def decodeDs (w : BitVec 6) : DecOp :=
  if w.getLsbD 5 then .reset
  else if w.getLsbD 4 then
    if w.getLsbD 0 then .retire else .hold
  else if w.getLsbD 3 then
    if w.getLsbD 2 then .eos
    else if w.getLsbD 1 then .cont else .term
  else .wait

/-- The class of a token word `E C GGGGGGG` (R52, R53). -/
def decodeTok (w : BitVec 9) : Instr :=
  if w.getLsbD 8 then .tokEos
  else if w.getLsbD 7 then .tokCont (w.setWidth 7) else .tokTerm (w.setWidth 7)

/-- The class of a varint byte `C GGGGGGG` (R50). -/
def decodeVb (b : Byte) : Instr :=
  if b.getLsbD 7 then .vbCont (b.setWidth 7) else .vbTerm (b.setWidth 7)

/-- Why a number is no word of a format. -/
inductive DecodeError where
  /-- The number has a 1 bit above the format's width. -/
  | wordTooWide
  /-- CMD with a width below 8 (R3). -/
  | unsupportedWidth
  deriving DecidableEq, Repr

/-- The instruction a word of the format `f` is. No word of any format is illegal (R60), so the one ground for
rejecting is that the number is no word of the format. -/
def decode (f : Format) (w : Nat) : Except DecodeError Instr :=
  if 2 ^ f.bits ≤ w then .error .wordTooWide
  else
    match f with
    | .es => .ok (decodeEs (BitVec.ofNat 5 w)).instr
    | .ds => .ok (decodeDs (BitVec.ofNat 6 w)).instr
    | .tok => .ok (decodeTok (BitVec.ofNat 9 w))
    | .vb => .ok (decodeVb (BitVec.ofNat 8 w))
    | .cmd W => if W < 8 then .error .unsupportedWidth else .ok (.encode w)

/-- The format and the word of an instruction of the hardware with `W`-bit values (R50, R53, R54, R58, R59).
A bit the row does not read is 0. -/
def encode (W : Nat) : Instr → Format × Nat
  | .encode v => (.cmd W, v)
  | .encReset => (.es, 0b10000)
  | .encIdle => (.es, 0b00000)
  | .encLoad => (.es, 0b00100)
  | .encStall => (.es, 0b01000)
  | .encEmit => (.es, 0b01010)
  | .encEmitl => (.es, 0b01011)
  | .decReset => (.ds, 0b100000)
  | .decWait => (.ds, 0b000000)
  | .decCont => (.ds, 0b001010)
  | .decTerm => (.ds, 0b001000)
  | .decEos => (.ds, 0b001100)
  | .decHold => (.ds, 0b010000)
  | .decRetire => (.ds, 0b010001)
  | .tokCont g => (.tok, (0b01#2 ++ g).toNat)
  | .tokTerm g => (.tok, (0b00#2 ++ g).toNat)
  | .tokEos => (.tok, 0b100000000)
  | .vbCont g => (.vb, (1#1 ++ g).toNat)
  | .vbTerm g => (.vb, (0#1 ++ g).toNat)

/-- Which format a word of the opcode table is read in when only its size is known. DESIGN CHOICE, log entry
14: the formats are told apart by where a word stands (a select word, a token, a byte, a command), never by
its bits, so a size in whole bytes is shared by several. An exact width names its format; a size in whole bytes
is read in the narrowest format of that size that holds the word. -/
def tableFormat (nbits w : Nat) : Format :=
  if nbits = 5 then .es
  else if nbits = 6 then .ds
  else if nbits = 9 then .tok
  else if nbits = 8 then
    if w < 2 ^ 5 then .es else if w < 2 ^ 6 then .ds else .vb
  else if nbits = 16 then
    if w < 2 ^ 9 then .tok else .cmd 16
  else .cmd nbits

/-- The instruction read from a word numbered as spec/opcode_table.json numbers it. -/
def decodeTableWord (nbits w : Nat) : Option Instr :=
  match decode (tableFormat nbits w) w with
  | .ok i => some i
  | .error _ => none

end Sys2Proof
end

