-- ==== Sys2Proof/Machine/State.lean ====
section
/-! DEFINITION. The state: the seven registers of R10, and beside them what the spec calls inputs and
parameters of a step (R25), held here as plain data because a step is a function of the state alone
(log entries 1, 2 and 10). There is no memory (R30). -/

namespace Sys2Proof.Machine

/-- `enc_state`: `IDLE` = 0, `EMIT` = 1 (R12). -/
inductive EncState where
  | idle | emit
  deriving DecidableEq, Repr

/-- `dec_state`: `ACCUM` = 0, `RESULT` = 1 (R15). -/
inductive DecState where
  | accum | result
  deriving DecidableEq, Repr

/-- The encoder's registers (R10). -/
structure Encoder (W : Nat) where
  /-- `enc_state` (R12). -/
  state : EncState
  /-- `enc_rem`, the part of the value not yet emitted (R11). -/
  rem : BitVec W
  deriving DecidableEq, Repr

/-- The decoder's registers (R10). -/
structure Decoder (W : Nat) where
  /-- `dec_state` (R15). -/
  state : DecState
  /-- `dec_acc`, the OR of the groups placed so far (R13). -/
  acc : BitVec W
  /-- `dec_idx`, a number from 0 to `NG` (R14; log entry 6). -/
  idx : Fin (ng W + 1)
  /-- `dec_err`, the TruncatedInput flag (R16). -/
  err : Bool
  /-- `dec_ovf`, the dropped-bits flag (R17). -/
  ovf : Bool
  deriving DecidableEq, Repr

/-- The input ports in one cycle (R32). -/
structure Inputs (W : Nat) where
  /-- `rst`: synchronous reset, active at 1. -/
  rst : Bool
  /-- `cmd_valid`. -/
  cmdValid : Bool
  /-- `cmd_value`. -/
  cmdValue : BitVec W
  /-- `out_ready`. -/
  outReady : Bool
  /-- `in_valid`. -/
  inValid : Bool
  /-- `in_data`. -/
  inData : Byte
  /-- `in_eos`. -/
  inEos : Bool
  /-- `res_ready`. -/
  resReady : Bool
  deriving DecidableEq, Repr

/-- A result as it crosses the `res` channel: `res_value`, `res_err`, `res_ovf` (R38, R55). -/
structure Result (W : Nat) where
  value : BitVec W
  err : Bool
  ovf : Bool
  deriving DecidableEq, Repr

/-- What has crossed each channel so far, oldest first: the MODEL's own record (log entry 10), read by no
operation. -/
structure Channels (W : Nat) where
  cmd : List (BitVec W)
  /-- The bytes taken on `out`, each with its last mark (R35). -/
  out : List (Byte × Bool)
  tok : List Token
  res : List (Result W)
  deriving DecidableEq, Repr

/-- One item of the environment's script (R62, R63; log entry 1). -/
inductive Stim (W : Nat) where
  /-- One cycle with these port values: a stimulus line, or several joined by `+` (R62). -/
  | line (p : Inputs W)
  /-- One cycle with these port values, but `in_valid`, `in_data`, `in_eos` and `out_ready` wired to the
  encoder's `out` channel and the decoder's `in_ready` (95_test_vectors.md P3). -/
  | wired (p : Inputs W)
  /-- `ENCODE v`, its first phase: `CMD v + TAKE` until a `cmd` transfer has happened (R63). -/
  | encode (v : BitVec W)
  /-- `ENCODE v`, its second phase: `TAKE` until an `out` transfer with `out_last = 1` has happened (R63). -/
  | collect
  /-- `DECODE`: the bytes not yet transferred, then `EOS`, until a result is offered; then `ACK` (R63). -/
  | decode (bytes : List Byte)
  deriving DecidableEq, Repr

/-- The hardware with parameters `c` and its environment in one cycle. -/
structure Chip (c : Config) where
  /-- The values on the input ports in this cycle. -/
  inputs : Inputs c.W
  enc : Encoder c.W
  dec : Decoder c.W
  chan : Channels c.W
  /-- The environment's script; the head is the item it presents in this cycle. -/
  env : List (Stim c.W)
  deriving DecidableEq, Repr

/-- The state of the machine: its parameters, which no step changes (R20), and the rest. -/
structure State where
  cfg : Config
  chip : Chip cfg
  deriving DecidableEq, Repr

/-- Nothing in this hardware faults: "no encoding makes the hardware trap" (R60), TruncatedInput is a result
(R120), and the hang of R77 is a run without end. The type has no constructor, so no step and no meaning can
answer a fault; it is safe. -/
inductive Fault where
  deriving DecidableEq, Repr

/-- Why the model gives no meaning. -/
inductive Refusal where
  /-- Raised by an arm of `exec` that has no meaning yet. Safe. -/
  | notModelled (mnemonic : String)
  /-- Raised by every meaning when `W < 8`: "A model must refuse `W < 8`" (R3). Safe (log entry 4). -/
  | unsupportedWidth
  /-- Raised by an encoder or decoder operation asked for in a cycle whose select word selects another
  operation (R58, R59): no rule gives it an effect there. `step` never raises it. Safe (log entry 5). -/
  | notSelected
  /-- Raised by ENCODE on a number that is no `W`-bit value: `cmd_value` has no truncation (R37, R54). Safe
  (log entry 13). -/
  | operandTooWide
  deriving DecidableEq, Repr

/-- The registers of an encoder in the idle state (R22). -/
def Encoder.atReset (W : Nat) : Encoder W := { state := .idle, rem := 0#W }

/-- The registers of a decoder in the idle state (R22). -/
def Decoder.atReset (W : Nat) : Decoder W := { state := .accum, acc := 0#W, idx := 0, err := false, ovf := false }

/-- The stimulus line `NOP`: every `valid` and `ready` input 0, `rst` 0 (R62). The data ports, which nothing
reads then, are 0 (log entry 9). -/
def Inputs.nop (W : Nat) : Inputs W :=
  { rst := false, cmdValid := false, cmdValue := 0#W, outReady := false,
    inValid := false, inData := 0#8, inEos := false, resReady := false }

/-- Nothing has crossed any channel. -/
def Channels.none (W : Nat) : Channels W := { cmd := [], out := [], tok := [], res := [] }

/-- The hardware with parameters `c` right after a reset cycle: the idle state (R22), with an environment that
has an empty script and drives `NOP` (log entry 8). -/
def Chip.atReset (c : Config) : Chip c :=
  { inputs := Inputs.nop c.W, enc := Encoder.atReset c.W, dec := Decoder.atReset c.W,
    chan := Channels.none c.W, env := [] }

/-- The machine right after reset (R22), with the parameters this hardware is instantiated with (R4; log entry 3
for `W`). -/
def State.reset : State := { cfg := Config.here, chip := Chip.atReset Config.here }

/-- What a meaning and a step answer. -/
abbrev Answer := Host.Outcome State Fault Refusal

end Sys2Proof.Machine
end

