-- ==== Sys2Proof/Machine/Operands.lean ====
section
/-! DEFINITION. The arithmetic of the two agents on their operands: the encoder's primitives (R8), the decoder's
primitives (R9), the bytes and tokens (R35, R36, R50, R56) and the saturating increment (R96). R7: "These are
all the arithmetic the hardware has". -/

namespace Sys2Proof.Machine

/-- `low7(x) = x[6:0]`, the document's `remaining & 0x7F` (R8). -/
def low7 {W : Nat} (x : BitVec W) : Group := x.extractLsb' 0 7

/-- `shr7(x)`: a logical shift right by 7 with `SIGNED = 0`, an arithmetic one with `SIGNED = 1` (R8; log entry 18). -/
def shr7 {W : Nat} (signed : Bool) (x : BitVec W) : BitVec W :=
  if signed then x.sshiftRight 7 else x >>> 7

/-- `full(g, i) = uint(g) * 2^(7*i)`, a natural number (R9). -/
def full (g : Group) (i : Nat) : Nat := g.toNat * 2 ^ (7 * i)

/-- `place(g, i) = trunc_W(full(g, i))`: "a shift by `W` or more gives zero, not a wrapped position" (R9). -/
def place (W : Nat) (g : Group) (i : Nat) : BitVec W := BitVec.ofNat W (full g i)

/-- The byte `{c, g}`: the continuation flag in bit 7, the group below it (R33, R50). -/
def byteOf (c : Bool) (g : Group) : Byte := BitVec.ofBool c ++ g

/-- The group of a byte, `in_data[6:0]` (R52, R95). -/
def groupOf (b : Byte) : Group := b.setWidth 7

/-- The continuation bit of a byte, `in_data[7]` (R50). -/
def contBit (b : Byte) : Bool := b.getLsbD 7

/-- `TokRead()`: `Byte(in_data)` when `in_eos = 0`, `Eos` when `in_eos = 1`; then `in_data` is not read (R36). -/
def tokRead {W : Nat} (p : Inputs W) : Token := if p.inEos then .eos else .byte p.inData

/-- `CmdRead()`: the whole of `cmd_value`, with no extension and no truncation (R37). -/
def cmdRead {W : Nat} (p : Inputs W) : BitVec W := p.cmdValue

/-- `acc_n = dec_acc | place(g, dec_idx)` (R95). -/
def accNext {W : Nat} (d : Decoder W) (g : Group) : BitVec W := d.acc ||| place W g d.idx

/-- `dec_idx + 1` below `NG`, else `NG` (R96). -/
def satIncr {n : Nat} (i : Fin (n + 1)) : Fin (n + 1) :=
  if h : i.val < n then ⟨i.val + 1, Nat.succ_lt_succ h⟩ else ⟨n, Nat.lt_succ_self n⟩

end Sys2Proof.Machine
end

