-- ==== Sys2Proof/Machine/Flags.lean ====
section
/-! DEFINITION. The flags: the comparisons with zero (R8), the two computed flags of the encoder (R19) and the
dropped-bits flag of the decoder (R9, R17, R95). `dec_err` is written by the entry and the return of
TruncatedInput in Ops.lean. -/

namespace Sys2Proof.Machine

/-- `eq0(x)` (R8). -/
def eq0 {W : Nat} (x : BitVec W) : Bool := x == 0#W

/-- `gt0(x)`: `uint(x) > 0` with `SIGNED = 0`, `sint(x) > 0` with `SIGNED = 1` (R8). -/
def gt0 {W : Nat} (signed : Bool) (x : BitVec W) : Bool :=
  if signed then !x.msb && x != 0#W else x != 0#W

/-- `nxt = shr7(enc_rem)` (R19). -/
def nxt {W : Nat} (signed : Bool) (rem : BitVec W) : BitVec W := shr7 signed rem

/-- `cont = gt0(nxt)`, the continuation flag of the byte offered (R19). -/
def cont {W : Nat} (signed : Bool) (rem : BitVec W) : Bool := gt0 signed (nxt signed rem)

/-- `fin = eq0(nxt)`: the byte offered is the last of the sequence (R19). -/
def fin {W : Nat} (signed : Bool) (rem : BitVec W) : Bool := eq0 (nxt signed rem)

/-- `drop(g, i)`: some 1 bit of the group lands at a position `>= W` (R9). -/
def drop (W : Nat) (g : Group) (i : Nat) : Bool := decide (2 ^ W ≤ full g i)

/-- `ovf_n = dec_ovf | drop(g, dec_idx)` (R95). -/
def ovfNext {W : Nat} (d : Decoder W) (g : Group) : Bool := d.ovf || drop W g d.idx

end Sys2Proof.Machine
end

