-- ==== Sys2Proof/Machine/Ops.lean ====
section
/-! DEFINITION. The operations all meanings share: the output ports (R33, R34), the transfers (R31), the select
words (R58, R59), what crosses a channel (R35 to R38), reset (R140), the entry of TruncatedInput (R123) and the
return from it (R124), and the one guard each agent's operations go through. -/

namespace Sys2Proof.Machine

/-! ### Output ports (R33, R34) -/

/-- `cmd_ready` (R33). -/
def cmdReady {W : Nat} (e : Encoder W) : Bool := e.state == .idle

/-- `out_valid` (R33). -/
def outValid {W : Nat} (e : Encoder W) : Bool := e.state == .emit

/-- `out_data = {cont, low7(enc_rem)}`, not gated by `out_valid` (R33). -/
def outData {W : Nat} (signed : Bool) (e : Encoder W) : Byte := byteOf (cont signed e.rem) (low7 e.rem)

/-- `out_last = fin` (R33). -/
def outLast {W : Nat} (signed : Bool) (e : Encoder W) : Bool := fin signed e.rem

/-- `in_ready` (R34). -/
def inReady {W : Nat} (d : Decoder W) : Bool := d.state == .accum

/-- `res_valid` (R34). -/
def resValid {W : Nat} (d : Decoder W) : Bool := d.state == .result

/-- `res_value = dec_acc`, `res_err = dec_err`, `res_ovf = dec_ovf`, in every cycle (R34). -/
def resOffered {W : Nat} (d : Decoder W) : Result W := { value := d.acc, err := d.err, ovf := d.ovf }

/-! ### Transfers (R31) -/

/-- A transfer on `cmd`: `valid = 1`, `ready = 1` and `rst = 0` (R31). -/
def Chip.cmdTransfer {c : Config} (m : Chip c) : Bool := m.inputs.cmdValid && cmdReady m.enc && !m.inputs.rst

/-- A transfer on `out` (R31). -/
def Chip.outTransfer {c : Config} (m : Chip c) : Bool := outValid m.enc && m.inputs.outReady && !m.inputs.rst

/-- A transfer on `in` (R31). -/
def Chip.tokTransfer {c : Config} (m : Chip c) : Bool := m.inputs.inValid && inReady m.dec && !m.inputs.rst

/-- A transfer on `res` (R31). -/
def Chip.resTransfer {c : Config} (m : Chip c) : Bool := resValid m.dec && m.inputs.resReady && !m.inputs.rst

/-! ### Select words (R58, R59) -/

/-- ES, `rst st cv or fin` (R58). -/
def Chip.esWord {c : Config} (m : Chip c) : BitVec 5 :=
  BitVec.ofBool m.inputs.rst ++ BitVec.ofBool (outValid m.enc) ++ BitVec.ofBool m.inputs.cmdValid ++
    BitVec.ofBool m.inputs.outReady ++ BitVec.ofBool (fin c.signed m.enc.rem)

/-- DS, `rst st iv E C rr` (R59). -/
def Chip.dsWord {c : Config} (m : Chip c) : BitVec 6 :=
  BitVec.ofBool m.inputs.rst ++ BitVec.ofBool (resValid m.dec) ++ BitVec.ofBool m.inputs.inValid ++
    BitVec.ofBool m.inputs.inEos ++ BitVec.ofBool (contBit m.inputs.inData) ++ BitVec.ofBool m.inputs.resReady

/-- The encoder operation of this cycle. -/
def Chip.encSelect {c : Config} (m : Chip c) : EncOp := decodeEs m.esWord

/-- The decoder operation of this cycle. -/
def Chip.decSelect {c : Config} (m : Chip c) : DecOp := decodeDs m.dsWord

/-! ### Register writes and what crosses a channel -/

/-- The encoder's registers in the next cycle. -/
def Chip.setEnc {c : Config} (m : Chip c) (e : Encoder c.W) : Chip c := { m with enc := e }

/-- The decoder's registers in the next cycle. -/
def Chip.setDec {c : Config} (m : Chip c) (d : Decoder c.W) : Chip c := { m with dec := d }

/-- The values on the input ports. -/
def Chip.setInputs {c : Config} (m : Chip c) (p : Inputs c.W) : Chip c := { m with inputs := p }

/-- The environment's script. -/
def Chip.setEnv {c : Config} (m : Chip c) (script : List (Stim c.W)) : Chip c := { m with env := script }

/-- The command `v` has been read, once (R37). -/
def Chip.cmdTaken {c : Config} (m : Chip c) (v : BitVec c.W) : Chip c :=
  { m with chan := { m.chan with cmd := m.chan.cmd ++ [v] } }

/-- `ByteWrite(b, last)`: the environment receives the byte and the mark (R35). -/
def Chip.byteWrite {c : Config} (m : Chip c) (b : Byte) (last : Bool) : Chip c :=
  { m with chan := { m.chan with out := m.chan.out ++ [(b, last)] } }

/-- The token `t` has been read, once (R36). -/
def Chip.tokTaken {c : Config} (m : Chip c) (t : Token) : Chip c :=
  { m with chan := { m.chan with tok := m.chan.tok ++ [t] } }

/-- `ResWrite(value, err, ovf)`: the environment receives the result (R38). -/
def Chip.resWrite {c : Config} (m : Chip c) (r : Result c.W) : Chip c :=
  { m with chan := { m.chan with res := m.chan.res ++ [r] } }

/-! ### Taking the one exception and returning from it -/

/-- `raise TruncatedInput` (R123): the accumulation and the dropped-bits flag are cleared, `dec_err` is set, the
decoder goes to `RESULT`, and `dec_idx` is held. Nothing is saved and control goes nowhere. -/
def raiseTruncatedInput {W : Nat} (d : Decoder W) : Decoder W :=
  { d with acc := 0#W, ovf := false, err := true, state := .result }

/-- The return, at the `res` transfer of a value or of an error alike: every decoder register is cleared and the
decoder is in the idle state (R99, R124). -/
def returnToIdle {W : Nat} (d : Decoder W) : Decoder W :=
  { d with acc := 0#W, idx := 0, ovf := false, err := false, state := .accum }

/-! ### The guard of an agent's operations -/

/-- An encoder operation: it happens exactly in a cycle whose ES selects it (R58, R61), and the registers of the
next cycle are then `after`. -/
def encOperation (op : EncOp) (s : State) (after : Chip s.cfg) : Answer :=
  if s.cfg.supported then
    if s.chip.encSelect = op then .next { cfg := s.cfg, chip := after } else .refused .notSelected
  else .refused .unsupportedWidth

/-- A decoder operation: it happens exactly in a cycle whose DS selects it (R59, R61), and the registers of the
next cycle are then `after`. -/
def decOperation (op : DecOp) (s : State) (after : Chip s.cfg) : Answer :=
  if s.cfg.supported then
    if s.chip.decSelect = op then .next { cfg := s.cfg, chip := after } else .refused .notSelected
  else .refused .unsupportedWidth

end Sys2Proof.Machine
end

