-- ==== Sys2Proof/Machine/Encoder.lean ====
section
/-! DEFINITION. The meanings of the encoder's operations (40_encoder.md R71 to R75, 70_reset_and_hazards.md
R140). No encoder operation reads or writes a decoder register. -/

namespace Sys2Proof.Machine

/-- ENC.RESET (R140): the encoder's registers go to the idle state; no transfer happens. -/
def execEncReset (s : State) : Answer :=
  encOperation .reset s (s.chip.setEnc (Encoder.atReset s.cfg.W))

/-- ENC.IDLE (R71): no register changes; no transfer. -/
def execEncIdle (s : State) : Answer :=
  encOperation .idle s s.chip

/-- ENC.LOAD (R72): `enc_rem <- cmd_value`, `enc_state <- EMIT`. -/
def execEncLoad (s : State) : Answer :=
  encOperation .load s
    ((s.chip.cmdTaken (cmdRead s.chip.inputs)).setEnc { state := .emit, rem := cmdRead s.chip.inputs })

/-- ENC.STALL (R73): no register changes; no transfer. -/
def execEncStall (s : State) : Answer :=
  encOperation .stall s s.chip

/-- ENC.EMIT (R74): `ByteWrite({cont, low7(enc_rem)}, 0)`, `enc_rem <- nxt`; `enc_state` stays. -/
def execEncEmit (s : State) : Answer :=
  encOperation .emit s
    ((s.chip.byteWrite (byteOf (cont s.cfg.signed s.chip.enc.rem) (low7 s.chip.enc.rem)) false).setEnc
      { s.chip.enc with rem := nxt s.cfg.signed s.chip.enc.rem })

/-- ENC.EMITL (R75): `ByteWrite({0, low7(enc_rem)}, 1)`, `enc_rem <- nxt`, `enc_state <- IDLE`. -/
def execEncEmitl (s : State) : Answer :=
  encOperation .emitl s
    ((s.chip.byteWrite (byteOf false (low7 s.chip.enc.rem)) true).setEnc
      { state := .idle, rem := nxt s.cfg.signed s.chip.enc.rem })

/-- What the encoder does in this cycle: the operation its select word selects. -/
def encoderCycle (s : State) : Answer :=
  match s.chip.encSelect with
  | .reset => execEncReset s
  | .idle => execEncIdle s
  | .load => execEncLoad s
  | .stall => execEncStall s
  | .emit => execEncEmit s
  | .emitl => execEncEmitl s

end Sys2Proof.Machine
end

