-- ==== Sys2Proof/Machine/Command.lean ====
section
/-! DEFINITION. The meaning of the one command, ENCODE (R54, R70). -/

namespace Sys2Proof.Machine

/-- `CMD v + TAKE` on the encoder's channels (R62), the other ports as they are. -/
def Chip.presentCommand {c : Config} (m : Chip c) (v : BitVec c.W) : Chip c :=
  m.setInputs { m.inputs with cmdValid := true, cmdValue := v, outReady := true }

/-- ENCODE: what the encoder does in a cycle in which the command `v` is presented, as the pseudo-operation
`ENCODE v` presents it (R63). "the transfer on the `cmd` channel is itself the request" (R54): in `IDLE` the value
is loaded (ENC.LOAD), and the encoder executes the rest over its own following cycles (R76); while another value is
being encoded the command waits and a byte of that value is taken. A negative value with `SIGNED = 1` is loaded like
any other and its encoding never ends (R77). Log entry 13. -/
def execEncode (v : Nat) (s : State) : Answer :=
  if s.cfg.supported && decide (2 ^ s.cfg.W ≤ v) then .refused .operandTooWide
  else encoderCycle { s with chip := s.chip.presentCommand (BitVec.ofNat s.cfg.W v) }

end Sys2Proof.Machine
end

