-- ==== Sys2Proof/Machine/Decoder.lean ====
section
/-! DEFINITION. The meanings of the decoder's operations (41_decoder.md R94 to R101, 70_reset_and_hazards.md
R140). No decoder operation reads `SIGNED` or an encoder register. -/

namespace Sys2Proof.Machine

/-- DEC.RESET (R140): the decoder's registers go to the idle state; no transfer happens. -/
def execDecReset (s : State) : Answer :=
  decOperation .reset s (s.chip.setDec (Decoder.atReset s.cfg.W))

/-- DEC.WAIT (R94): no register changes; no transfer. -/
def execDecWait (s : State) : Answer :=
  decOperation .wait s s.chip

/-- DEC.CONT (R96): the group is ORed in, `dec_ovf` takes up the dropped bits, `dec_idx` goes up and saturates at
`NG`. -/
def execDecCont (s : State) : Answer :=
  decOperation .cont s
    ((s.chip.tokTaken (tokRead s.chip.inputs)).setDec
      { s.chip.dec with
        acc := accNext s.chip.dec (groupOf s.chip.inputs.inData)
        ovf := ovfNext s.chip.dec (groupOf s.chip.inputs.inData)
        idx := satIncr s.chip.dec.idx })

/-- DEC.TERM (R97): the group is ORed in, `dec_ovf` takes up the dropped bits, `dec_state <- RESULT`; `dec_idx` is
held. -/
def execDecTerm (s : State) : Answer :=
  decOperation .term s
    ((s.chip.tokTaken (tokRead s.chip.inputs)).setDec
      { s.chip.dec with
        acc := accNext s.chip.dec (groupOf s.chip.inputs.inData)
        ovf := ovfNext s.chip.dec (groupOf s.chip.inputs.inData)
        state := .result })

/-- DEC.EOS (R98): `raise TruncatedInput`. -/
def execDecEos (s : State) : Answer :=
  decOperation .eos s
    ((s.chip.tokTaken (tokRead s.chip.inputs)).setDec (raiseTruncatedInput s.chip.dec))

/-- DEC.HOLD (R101): no register changes; no transfer. -/
def execDecHold (s : State) : Answer :=
  decOperation .hold s s.chip

/-- DEC.RETIRE (R99): `ResWrite(dec_acc, dec_err, dec_ovf)`, and the decoder returns to the idle state. -/
def execDecRetire (s : State) : Answer :=
  decOperation .retire s
    ((s.chip.resWrite (resOffered s.chip.dec)).setDec (returnToIdle s.chip.dec))

/-- What the decoder does in this cycle: the operation its select word selects. -/
def decoderCycle (s : State) : Answer :=
  match s.chip.decSelect with
  | .reset => execDecReset s
  | .wait => execDecWait s
  | .cont => execDecCont s
  | .term => execDecTerm s
  | .eos => execDecEos s
  | .hold => execDecHold s
  | .retire => execDecRetire s

end Sys2Proof.Machine
end

