-- ==== Sys2Proof/Machine/Token.lean ====
section
/-! DEFINITION. The meanings of the token classes (R53) and of the varint byte classes (R50): what the decoder
does in a cycle in which that token is presented on the `in` channel. The token is transferred, and has its
effect, exactly when `in_ready = 1` and `rst = 0` (R31); in `RESULT` it waits (R101), and a reset wins (R125).
Log entries 11 and 12. -/

namespace Sys2Proof.Machine

/-- The token `t` on the `in` channel (`BYTE b`, `EOS` of R62), the other ports as they are. Under `EOS` `in_data`
is ignored and keeps its value (R52). -/
def Chip.presentToken {c : Config} (m : Chip c) : Token → Chip c
  | .byte b => m.setInputs { m.inputs with inValid := true, inEos := false, inData := b }
  | .eos => m.setInputs { m.inputs with inValid := true, inEos := true }

/-- The decoder's cycle with the token `t` presented. -/
def tokenCycle (t : Token) (s : State) : Answer :=
  decoderCycle { s with chip := s.chip.presentToken t }

/-- TOK.CONT: `in_eos = 0`, `in_data = {1, g}`; "place group, continue" (R53). -/
def execTokCont (g : Group) (s : State) : Answer := tokenCycle (.byte (byteOf true g)) s

/-- TOK.TERM: `in_eos = 0`, `in_data = {0, g}`; "place group, end the decode with a value" (R53). -/
def execTokTerm (g : Group) (s : State) : Answer := tokenCycle (.byte (byteOf false g)) s

/-- TOK.EOS: `in_eos = 1`; "end the decode with TruncatedInput" (R53). -/
def execTokEos (s : State) : Answer := tokenCycle .eos s

/-- VB.CONT: the continuation byte `{1, g}`, as the decoder receives it (R50, R36). -/
def execVbCont (g : Group) (s : State) : Answer := tokenCycle (.byte (byteOf true g)) s

/-- VB.TERM: the terminating byte `{0, g}`, as the decoder receives it (R50, R36). -/
def execVbTerm (g : Group) (s : State) : Answer := tokenCycle (.byte (byteOf false g)) s

end Sys2Proof.Machine
end

