-- ==== Sys2Proof/Machine/Dispatch.lean ====
section
/-! DEFINITION. One arm for each constructor of Instr, each one call of that instruction's meaning. -/

namespace Sys2Proof.Machine

def exec (i : Instr) (s : State) : Host.Outcome State Fault Refusal :=
  match i with
  | .encode v => Sys2Proof.Machine.execEncode v s
  -- the encoder's operations (R58)
  | .encReset => Sys2Proof.Machine.execEncReset s
  | .encIdle => Sys2Proof.Machine.execEncIdle s
  | .encLoad => Sys2Proof.Machine.execEncLoad s
  | .encStall => Sys2Proof.Machine.execEncStall s
  | .encEmit => Sys2Proof.Machine.execEncEmit s
  | .encEmitl => Sys2Proof.Machine.execEncEmitl s
  -- the decoder's operations (R59)
  | .decReset => Sys2Proof.Machine.execDecReset s
  | .decWait => Sys2Proof.Machine.execDecWait s
  | .decCont => Sys2Proof.Machine.execDecCont s
  | .decTerm => Sys2Proof.Machine.execDecTerm s
  | .decEos => Sys2Proof.Machine.execDecEos s
  | .decHold => Sys2Proof.Machine.execDecHold s
  | .decRetire => Sys2Proof.Machine.execDecRetire s
  -- the tokens (R53) and the varint bytes (R50)
  | .tokCont g => Sys2Proof.Machine.execTokCont g s
  | .tokTerm g => Sys2Proof.Machine.execTokTerm g s
  | .tokEos => Sys2Proof.Machine.execTokEos s
  | .vbCont g => Sys2Proof.Machine.execVbCont g s
  | .vbTerm g => Sys2Proof.Machine.execVbTerm g s

end Sys2Proof.Machine
end

