-- ==== Sys2Proof/Machine/Stimulus.lean ====
section
/-! DEFINITION. The environment: the stimulus lines (R62), the pseudo-operations (R63) and what becomes of the
script at the end of a cycle. -/

namespace Sys2Proof.Machine

/-! ### Stimulus lines (R62) -/

/-- `RST`. -/
def lineRst (W : Nat) : Inputs W := { Inputs.nop W with rst := true }

/-- `CMD v`. -/
def lineCmd {W : Nat} (v : BitVec W) : Inputs W := { Inputs.nop W with cmdValid := true, cmdValue := v }

/-- `TAKE`. -/
def lineTake (W : Nat) : Inputs W := { Inputs.nop W with outReady := true }

/-- `BYTE b`. -/
def lineByte (W : Nat) (b : Byte) : Inputs W := { Inputs.nop W with inValid := true, inData := b }

/-- `EOS`. -/
def lineEos (W : Nat) : Inputs W := { Inputs.nop W with inValid := true, inEos := true }

/-- `ACK`. -/
def lineAck (W : Nat) : Inputs W := { Inputs.nop W with resReady := true }

/-- `a + b`: the drives of both lines together in one cycle (R62). A port a line does not name is 0 in it. DESIGN
CHOICE, log entry 20: two lines that both drive `cmd_value`, `in_data` or `in_eos`, and differ, drive the OR of the
two; R62 says nothing of it. -/
def Inputs.plus {W : Nat} (a b : Inputs W) : Inputs W :=
  { rst := a.rst || b.rst
    cmdValid := a.cmdValid || b.cmdValid
    cmdValue := a.cmdValue ||| b.cmdValue
    outReady := a.outReady || b.outReady
    inValid := a.inValid || b.inValid
    inData := a.inData ||| b.inData
    inEos := a.inEos || b.inEos
    resReady := a.resReady || b.resReady }

/-! ### What an item drives, and what becomes of it -/

/-- The port values the item drives in a cycle with these registers. The environment may compute its ports from the
hardware's outputs of the same cycle (R31): `DECODE` looks at `res_valid` (R63), and `wired` is the wiring of
95_test_vectors.md P3. -/
def Stim.ports {W : Nat} (signed : Bool) (e : Encoder W) (d : Decoder W) : Stim W → Inputs W
  | .line p => p
  | .wired p =>
    { p with inValid := outValid e, inData := outData signed e, inEos := false, outReady := inReady d }
  | .encode v => (lineCmd v).plus (lineTake W)
  | .collect => lineTake W
  | .decode bytes =>
    if resValid d then lineAck W
    else
      match bytes with
      | b :: _ => lineByte W b
      | [] => lineEos W

/-- The port values in a cycle: those of the item in progress; `NOP` when the script is at its end (log entry 8). -/
def drive {W : Nat} (signed : Bool) (e : Encoder W) (d : Decoder W) : List (Stim W) → Inputs W
  | [] => Inputs.nop W
  | item :: _ => item.ports signed e d

/-- What was transferred in a cycle (R31), with the last mark of the byte offered in it. -/
structure Transfers where
  cmd : Bool
  out : Bool
  last : Bool
  tok : Bool
  res : Bool

/-- The transfers of this cycle. -/
def Chip.transfers {c : Config} (m : Chip c) : Transfers :=
  { cmd := m.cmdTransfer, out := m.outTransfer, last := outLast c.signed m.enc,
    tok := m.tokTransfer, res := m.resTransfer }

/-- The script after a cycle with these transfers: a line is over; `ENCODE` goes on to its second phase at the `cmd`
transfer and is over at the `out` transfer of the last byte; `DECODE` presents each token until it is transferred and
is over at the `res` transfer (R63). -/
def advance {W : Nat} (t : Transfers) : List (Stim W) → List (Stim W)
  | [] => []
  | .line _ :: rest => rest
  | .wired _ :: rest => rest
  | .encode v :: rest => if t.cmd then .collect :: rest else .encode v :: rest
  | .collect :: rest => if t.out && t.last then rest else .collect :: rest
  | .decode bytes :: rest =>
    if t.res then rest
    else if t.tok then .decode bytes.tail :: rest
    else .decode bytes :: rest

/-- The environment presents the head of `script` from this cycle on. -/
def Chip.load {c : Config} (script : List (Stim c.W)) (m : Chip c) : Chip c :=
  (m.setEnv script).setInputs (drive c.signed m.enc m.dec script)

/-- The end of a cycle: the script moves on, and the next cycle's ports are driven. -/
def Chip.endCycle {c : Config} (t : Transfers) (m : Chip c) : Chip c :=
  m.load (advance t m.env)

/-- The machine with the environment's script loaded from outside (log entry 15). -/
def State.load (s : State) (script : List (Stim s.cfg.W)) : State :=
  { s with chip := s.chip.load script }

end Sys2Proof.Machine
end

