-- ==== Sys2Proof/Machine/Fetch.lean ====
section
/-! DEFINITION. Placing a word of the opcode table where the next step finds it. The hardware fetches nothing
(R46): a select word is formed from state and handshake bits (R58, R59), a token, a byte or a command is presented
on a channel. So each placement sets the ports of this cycle, and of the registers only what the word's state bits
name or its transfer needs (log entry 15). -/

namespace Sys2Proof.Machine

/-- The ports of this cycle, as one line put before the script. -/
def Chip.present {c : Config} (m : Chip c) (p : Inputs c.W) : Chip c :=
  (m.setEnv (.line p :: m.env)).setInputs p

/-- ES (R58): `rst`, `cmd_valid` and `out_ready` on the ports, `enc_state` in its register; `enc_rem` changes only
where the row reads `fin` and the register does not already give it (0 has `fin = 1`, 128 has `fin = 0`). -/
def Chip.placeEs {c : Config} (w : BitVec 5) (m : Chip c) : Chip c :=
  let readsFin := decodeEs w = .emit ∨ decodeEs w = .emitl
  let rem := if readsFin ∧ fin c.signed m.enc.rem ≠ w.getLsbD 0 then
      (if w.getLsbD 0 then 0#c.W else BitVec.ofNat c.W 128) else m.enc.rem
  (m.setEnc { state := if w.getLsbD 3 then .emit else .idle, rem := rem }).present
    { m.inputs with rst := w.getLsbD 4, cmdValid := w.getLsbD 2, outReady := w.getLsbD 1 }

/-- DS (R59): `rst`, `in_valid`, `in_eos`, `in_data[7]` and `res_ready` on the ports, `dec_state` in its register. -/
def Chip.placeDs {c : Config} (w : BitVec 6) (m : Chip c) : Chip c :=
  (m.setDec { m.dec with state := if w.getLsbD 4 then .result else .accum }).present
    { m.inputs with
      rst := w.getLsbD 5, inValid := w.getLsbD 3, inEos := w.getLsbD 2,
      inData := byteOf (w.getLsbD 1) (groupOf m.inputs.inData), resReady := w.getLsbD 0 }

/-- TOK and VB (R50, R52): the token on the `in` channel of a decoder that accepts it. -/
def Chip.placeToken {c : Config} (eos : Bool) (b : Byte) (m : Chip c) : Chip c :=
  (m.setDec { m.dec with state := .accum }).present
    { m.inputs with rst := false, inValid := true, inEos := eos, inData := b }

/-- CMD (R54): the pseudo-operation `ENCODE v` before the script, on the `cmd` channel of an encoder that accepts it. -/
def Chip.placeCommand {c : Config} (v : BitVec c.W) (m : Chip c) : Chip c :=
  ((m.setEnc { m.enc with state := .idle }).setEnv (.encode v :: m.env)).setInputs
    { m.inputs with rst := false, cmdValid := true, cmdValue := v, outReady := true }

/-- The word `w` of `nbits` bits placed for the next step; a number that is no word, and a command wider than the
value, change nothing. -/
def Chip.placeWord {c : Config} (nbits w : Nat) (m : Chip c) : Chip c :=
  match decodeTableWord nbits w with
  | none => m
  | some _ =>
    match tableFormat nbits w with
    | .es => m.placeEs (BitVec.ofNat 5 w)
    | .ds => m.placeDs (BitVec.ofNat 6 w)
    | .tok => m.placeToken ((BitVec.ofNat 9 w).getLsbD 8) (BitVec.ofNat 8 w)
    | .vb => m.placeToken false (BitVec.ofNat 8 w)
    | .cmd _ => if w < 2 ^ c.W then m.placeCommand (BitVec.ofNat c.W w) else m

end Sys2Proof.Machine
end

