-- ==== Sys2Proof/Machine/Step.lean ====
section
/-! DEFINITION. One step is one clock cycle (R6): the encoder performs the operation its select word selects, the
decoder performs the operation its select word selects, and the environment drives the ports of the next cycle. The
two agents' steps "can be taken in either order with the same result" (R6); the model takes the encoder's first (log entry 16). -/

namespace Sys2Proof.Machine

/-- One clock cycle of both agents (R2, R6). -/
def step (s : State) : Host.Outcome State Fault Refusal :=
  match exec s.chip.encSelect.instr s with
  | .next s1 =>
    match exec s1.chip.decSelect.instr s1 with
    | .next s2 => .next { s2 with chip := s2.chip.endCycle s.chip.transfers }
    | .fault r => .fault r
    | .refused r => .refused r
  | .fault r => .fault r
  | .refused r => .refused r

/-- `s` with the word placed so that the very next step runs it (log entry 15). -/
def State.withFetchWord (s : State) (nbits w : Nat) : State :=
  { s with chip := s.chip.placeWord nbits w }

end Sys2Proof.Machine
end

