-- ==== Sys2Proof/Machine/Reference.lean ====
section
/-! DEFINITION. The two functions of the document, to state what the operations add up to: `encode_ref` (R70) and
`decode_ref` (R90). No step of the machine uses them. -/

namespace Sys2Proof.Machine

/-- The first `k` pairs (byte, last) of `encode_ref` from `rem` on, and all of them when the loop ends sooner (R70).
For a negative value with `SIGNED = 1` the loop never ends (R77), and every `k` gives `k` pairs (log entry 19). -/
def encodePairs {W : Nat} (signed : Bool) : Nat → BitVec W → List (Byte × Bool)
  | 0, _ => []
  | k + 1, rem =>
    let n := shr7 signed rem
    (byteOf (gt0 signed n) (low7 rem), eq0 n) :: if eq0 n then [] else encodePairs signed k n

/-- `encode_ref(v)` where it is finite: at most `NG` pairs (R70). -/
def encodeRef (c : Config) (v : BitVec c.W) : List (Byte × Bool) := encodePairs c.signed (ng c.W) v

/-- `bit_length`: 0 for 0, else "the position of the highest 1 bit plus one" (R70). -/
def bitLength (n : Nat) : Nat := if n = 0 then 0 else Nat.log2 n + 1

/-- `L(v) = max(1, ceil(bit_length(uint(v)) / 7))` (R70). -/
def encodedLength {W : Nat} (v : BitVec W) : Nat := max 1 ((bitLength v.toNat + 6) / 7)

/-- What `decode_ref` returns: `Ok(value, ovf, consumed)` or `Err(TruncatedInput)` (R90). -/
inductive Decoded (W : Nat) where
  | ok (value : BitVec W) (ovf : Bool) (consumed : Nat)
  | truncated
  deriving DecidableEq, Repr

/-- The loop of `decode_ref` from position `i` on (R90). -/
def decodeFrom {W : Nat} (i : Nat) (result : BitVec W) (ovf : Bool) : List Byte → Decoded W
  | [] => .truncated
  | b :: rest =>
    let result' := result ||| place W (groupOf b) i
    let ovf' := ovf || drop W (groupOf b) i
    if contBit b then decodeFrom (i + 1) result' ovf' rest else .ok result' ovf' (i + 1)

/-- `decode_ref(bytes)` (R90). -/
def decodeRef (W : Nat) (bytes : List Byte) : Decoded W := decodeFrom 0 (0#W) false bytes

/-- The number a list of bytes spells, `sum over i of uint(G_i) * 2^(7*i)` (R51). -/
def spelled : List Byte → Nat
  | [] => 0
  | b :: rest => (groupOf b).toNat + 2 ^ 7 * spelled rest

/-- The result the decoder offers for what `decode_ref` returns (R55, R102). -/
def Decoded.result {W : Nat} : Decoded W → Result W
  | .ok value ovf _ => { value := value, err := false, ovf := ovf }
  | .truncated => { value := 0#W, err := true, ovf := false }

/-- The results of the decodes that end within `tokens`, in order, the bytes `sofar` having been consumed by the
decode in progress; and the bytes of the decode in progress at the end (R102, R104). -/
def decodesOf (W : Nat) (sofar : List Byte) : List Token → List (Result W) × List Byte
  | [] => ([], sofar)
  | .eos :: rest =>
    let (results, open') := decodesOf W [] rest
    ((decodeRef W sofar).result :: results, open')
  | .byte b :: rest =>
    if contBit b then decodesOf W (sofar ++ [b]) rest
    else
      let (results, open') := decodesOf W [] rest
      ((decodeRef W (sofar ++ [b])).result :: results, open')

end Sys2Proof.Machine
end

