-- ==== Sys2Proof/Safety.lean ====
section
/-! DEFINITION. The terms in which statements about the machine are made: the invariants of R24, what an agent still
owes, runs of several cycles, and runs in an environment that is free to drive any port values in any cycle (R152).
A safe run is a run after a reset cycle (R143): `AfterReset`. -/

namespace Sys2Proof.Machine

/-- R24 I1: `enc_state = IDLE` implies `enc_rem = 0`. -/
def Chip.idleHoldsZero {c : Config} (m : Chip c) : Prop := m.enc.state = .idle → m.enc.rem = 0#c.W

/-- R24 I2: `dec_idx <= NG`. -/
def Chip.idxInRange {c : Config} (m : Chip c) : Prop := m.dec.idx.val ≤ ng c.W

/-- R24 I3: `dec_state = ACCUM` implies `dec_err = 0`. -/
def Chip.accumHasNoError {c : Config} (m : Chip c) : Prop := m.dec.state = .accum → m.dec.err = false

/-- R24 I4: `dec_state = ACCUM` and `dec_idx = 0` imply `dec_acc = 0` and `dec_ovf = 0`. -/
def Chip.freshIsClear {c : Config} (m : Chip c) : Prop :=
  m.dec.state = .accum ∧ m.dec.idx.val = 0 → m.dec.acc = 0#c.W ∧ m.dec.ovf = false

/-- R24 I5: `dec_err = 1` implies `dec_state = RESULT`, `dec_acc = 0` and `dec_ovf = 0`. -/
def Chip.errorIsBare {c : Config} (m : Chip c) : Prop :=
  m.dec.err = true → m.dec.state = .result ∧ m.dec.acc = 0#c.W ∧ m.dec.ovf = false

/-- The invariants I1 to I5 of R24. (I6 speaks of a run; it is a statement of its own.) -/
def Chip.Inv {c : Config} (m : Chip c) : Prop :=
  m.idleHoldsZero ∧ m.idxInRange ∧ m.accumHasNoError ∧ m.freshIsClear ∧ m.errorIsBare

/-- `Chip.Inv` of a state. -/
def State.Inv (s : State) : Prop := s.chip.Inv

/-- The bytes of the value in progress that have not been taken yet, with their last marks. -/
def Chip.encoderOwes {c : Config} (m : Chip c) : List (Byte × Bool) :=
  if m.enc.state = .emit then encodeRef c m.enc.rem else []

/-- The result offered and not taken yet, if there is one. -/
def Chip.decoderOffers {c : Config} (m : Chip c) : List (Result c.W) :=
  if m.dec.state = .result then [resOffered m.dec] else []

/-- A value whose encoding ends: any with `SIGNED = 0`, a non-negative one with `SIGNED = 1` (R70, R77). -/
def encodes (c : Config) (v : BitVec c.W) : Prop := c.signed = true → v.msb = false

/-- `n` cycles with the environment the state holds. -/
def cycles : Nat → State → Answer
  | 0, s => .next s
  | n + 1, s =>
    match step s with
    | .next t => cycles n t
    | .fault r => .fault r
    | .refused r => .refused r

/-- `FreeRun P n m t`: `n` cycles lead from `m` to `t`, the environment driving in each cycle any port values that
meet `P` (R152: "in any pattern"). -/
inductive FreeRun {c : Config} (P : Inputs c.W → Prop) : Nat → Chip c → Chip c → Prop where
  | start (m : Chip c) : FreeRun P 0 m m
  | cycle {n : Nat} {m u t : Chip c} (p : Inputs c.W) (before : FreeRun P n m u) (allowed : P p)
      (now : step { cfg := c, chip := u.setInputs p } = .next { cfg := c, chip := t }) : FreeRun P (n + 1) m t

/-- The environment does not assert `rst`. -/
def noReset {W : Nat} (p : Inputs W) : Prop := p.rst = false

/-- The registers in some cycle after a reset cycle, whatever they held before it and whatever the environment has
driven since (R143, R152). -/
inductive AfterReset {c : Config} : Chip c → Prop where
  | resetCycle {m t : Chip c} (p : Inputs c.W) (asserted : p.rst = true)
      (now : step { cfg := c, chip := m.setInputs p } = .next { cfg := c, chip := t }) : AfterReset t
  | cycle {m t : Chip c} (p : Inputs c.W) (before : AfterReset m)
      (now : step { cfg := c, chip := m.setInputs p } = .next { cfg := c, chip := t }) : AfterReset t

end Sys2Proof.Machine
end

