-- ==== Sys2Proof/Certificates/Slice0/Obligations.lean ====
section
/-! DEFINITION. The statements for the provers. A state is written `⟨c, m⟩`: the parameters `c` and the rest `m`; a
statement over every `c` and `m` is about every width, both values of `SIGNED` and every register value, whether or
not a run reaches it. -/

open Sys2Proof Sys2Proof.Machine

section

/-! ### Parameters and primitives -/

/-- R5: `NG = ceil(W / 7)` and `IW` is the least width that holds every number from 0 to `NG`; the values the rule
lists for the four widths the document names. -/
def Obligations.GroupCountAndIndexWidth : Prop :=
  (∀ W : Nat, 8 ≤ W → W ≤ 7 * ng W ∧ 7 * (ng W - 1) < W ∧ ng W < 2 ^ iw W ∧ 2 ^ (iw W - 1) ≤ ng W) ∧
    [8, 16, 32, 64].map ng = [2, 3, 5, 10] ∧ [8, 16, 32, 64].map iw = [2, 2, 3, 4]

/-- R8, bit by bit: `low7(x) = x[6:0]`; `shr7` shifts in zeros with `SIGNED = 0` and copies of the sign bit with
`SIGNED = 1`; `eq0` and `gt0` compare with zero in the value type, complementary but at negative values, where both are
0; the fixed points of `shr7`; and a negative value reaches -1 within `NG` shifts and never 0. -/
def Obligations.EncoderPrimitivesBitByBit : Prop :=
  ∀ (W : Nat) (x : BitVec W), 8 ≤ W →
    (∀ k : Nat, k < 7 → (low7 x).getLsbD k = x.getLsbD k) ∧
    (∀ k : Nat, k < W → (shr7 false x).getLsbD k = (if k + 7 < W then x.getLsbD (k + 7) else false)) ∧
    (∀ k : Nat, k < W → (shr7 true x).getLsbD k = (if k + 7 < W then x.getLsbD (k + 7) else x.msb)) ∧
    (eq0 x = true ↔ x.toNat = 0) ∧
    (gt0 false x = true ↔ 0 < x.toNat) ∧
    (gt0 true x = true ↔ 0 < x.toInt) ∧
    gt0 false x = !eq0 x ∧
    (x.msb = false → gt0 true x = !eq0 x) ∧
    (x.msb = true → gt0 true x = false ∧ eq0 x = false) ∧
    (∀ signed : Bool, shr7 signed (0#W) = 0#W) ∧
    shr7 true (BitVec.allOnes W) = BitVec.allOnes W ∧
    (x.msb = true →
      (∃ k : Nat, k ≤ ng W ∧ (shr7 true)^[k] x = BitVec.allOnes W) ∧ ∀ k : Nat, (shr7 true)^[k] x ≠ 0#W)

/-- The bound `K` of R77: shifting a negative value arithmetically by 7, `ceil((W-1)/7)` times or more, gives -1, and no
number of shifts gives 0. -/
def Obligations.NegativeShiftsReachMinusOne : Prop :=
  ∀ (W : Nat) (x : BitVec W) (k : Nat), 8 ≤ W → x.msb = true →
    (shr7 true)^[k] x ≠ 0#W ∧ ((W - 1 + 6) / 7 ≤ k → (shr7 true)^[k] x = BitVec.allOnes W)

/-- R9, bit by bit: `place` puts bit `j` of the group at bit `7i + j` and drops what lies at or above bit `W`; `drop`
says that some 1 bit was dropped; the shift amount is never reduced modulo `W`. -/
def Obligations.DecoderPrimitivesBitByBit : Prop :=
  ∀ (W : Nat) (g : Group) (i : Nat), 8 ≤ W →
    (∀ k : Nat, k < W →
      (place W g i).getLsbD k = (if 7 * i ≤ k ∧ k ≤ 7 * i + 6 then g.getLsbD (k - 7 * i) else false)) ∧
    (drop W g i = true ↔ ∃ j : Nat, j < 7 ∧ g.getLsbD j = true ∧ W ≤ 7 * i + j) ∧
    (ng W ≤ i → place W g i = 0#W ∧ (drop W g i = true ↔ g ≠ 0#7))

/-- R14: "Saturation loses nothing": beyond `NG` every position gives what `NG` gives, and the increment stops there. -/
def Obligations.SaturatedPositionLosesNothing : Prop :=
  ∀ (W : Nat) (g : Group) (i : Nat), 8 ≤ W →
    place W g (min i (ng W)) = place W g i ∧ drop W g (min i (ng W)) = drop W g i ∧
    (∀ k : Fin (ng W + 1), (satIncr k).val = if k.val < ng W then k.val + 1 else ng W)

/-- R19: `cont` and `fin` say of `nxt = shr7(enc_rem)` whether it is positive and whether it is 0, and become
`out_data[7]` and `out_last`; they are complementary with `SIGNED = 0`, and both 0 at a negative `nxt` with
`SIGNED = 1`. -/
def Obligations.ComputedFlagsOfTheEncoder : Prop :=
  ∀ (W : Nat) (rem : BitVec W), 8 ≤ W →
    (∀ (signed : Bool) (state : EncState),
      nxt signed rem = shr7 signed rem ∧ cont signed rem = gt0 signed (nxt signed rem) ∧
      (fin signed rem = true ↔ nxt signed rem = 0#W) ∧
      (outData signed { state := state, rem := rem }).getLsbD 7 = cont signed rem ∧
      outLast signed { state := state, rem := rem } = fin signed rem) ∧
    cont false rem = !fin false rem ∧
    ((nxt true rem).msb = true → cont true rem = false ∧ fin true rem = false) ∧
    ((nxt true rem).msb = false → cont true rem = !fin true rem)

/-- R33, and the five equations of R34: the output ports in every cycle, as functions of the registers, not gated; with
`enc_rem = 0` they read `out_data = 0x00` and `out_last = 1`; with `SIGNED = 0` the last mark is the complement of bit 7
(R78 item 2). -/
def Obligations.OutputPortsFromTheRegisters : Prop :=
  (∀ (W : Nat) (signed : Bool) (e : Encoder W), 8 ≤ W →
    (cmdReady e = true ↔ e.state = .idle) ∧ (outValid e = true ↔ e.state = .emit) ∧
    (outData signed e).getLsbD 7 = cont signed e.rem ∧
    (∀ k : Nat, k < 7 → (outData signed e).getLsbD k = e.rem.getLsbD k) ∧
    outLast signed e = fin signed e.rem ∧
    (e.rem = 0#W → outData signed e = 0x00#8 ∧ outLast signed e = true) ∧
    outLast false e = !(outData false e).getLsbD 7) ∧
  (∀ (W : Nat) (d : Decoder W),
    (inReady d = true ↔ d.state = .accum) ∧ (resValid d = true ↔ d.state = .result) ∧
    (resOffered d).value = d.acc ∧ (resOffered d).err = d.err ∧ (resOffered d).ovf = d.ovf)

/-! ### Reset -/

/-- The state right after reset has every register at the value R22 gives, and an unsigned value type (R4). The width
16 and the quiet environment are the model's choices (log entries 3, 8, 10) and are not stated here. -/
def Obligations.ResetStateIsTheIdleState : Prop :=
  State.reset.cfg.signed = false ∧ 8 ≤ State.reset.cfg.W ∧
    State.reset.chip.enc = { state := .idle, rem := 0#_ } ∧
    State.reset.chip.dec = { state := .accum, acc := 0#_, idx := 0, err := false, ovf := false }

/-- R140: in a cycle with `rst = 1`, whatever every other input and every register is, each agent's reset operation runs
and writes that agent's reset values, and the whole step leaves both agents in the idle state with no transfer on any
channel. -/
def Obligations.ResetCycleGivesTheIdleState : Prop :=
  ∀ (c : Config) (m : Chip c), 8 ≤ c.W → m.inputs.rst = true →
    exec .encReset ⟨c, m⟩ = .next ⟨c, { m with enc := { state := .idle, rem := 0#c.W } }⟩ ∧
    exec .decReset ⟨c, m⟩ =
      .next ⟨c, { m with dec := { state := .accum, acc := 0#c.W, idx := 0, err := false, ovf := false } }⟩ ∧
    ∃ t : Chip c, step ⟨c, m⟩ = .next ⟨c, t⟩ ∧
      t.enc = { state := .idle, rem := 0#c.W } ∧
      t.dec = { state := .accum, acc := 0#c.W, idx := 0, err := false, ovf := false } ∧
      t.chan = m.chan

/-! ### The encoder's operations -/

/-- R71: ENC.IDLE changes no register and transfers nothing; `cmd_ready = 1`, `out_valid = 0`. -/
def Obligations.EncIdleChangesNothing : Prop :=
  ∀ (c : Config) (m : Chip c), 8 ≤ c.W →
    m.inputs.rst = false → m.enc.state = .idle → m.inputs.cmdValid = false →
    exec .encIdle ⟨c, m⟩ = .next ⟨c, m⟩ ∧ cmdReady m.enc = true ∧ outValid m.enc = false

/-- R72: ENC.LOAD takes the command: `enc_rem <- cmd_value`, `enc_state <- EMIT`; no byte in this cycle. -/
def Obligations.EncLoadTakesTheCommand : Prop :=
  ∀ (c : Config) (m : Chip c), 8 ≤ c.W →
    m.inputs.rst = false → m.enc.state = .idle → m.inputs.cmdValid = true →
    exec .encLoad ⟨c, m⟩ =
        .next ⟨c, { m with
          enc := { state := .emit, rem := m.inputs.cmdValue }
          chan := { m.chan with cmd := m.chan.cmd ++ [m.inputs.cmdValue] } }⟩ ∧
      m.cmdTransfer = true ∧ outValid m.enc = false

/-- R73: ENC.STALL changes no register and transfers nothing, a command presented included; the byte is offered. -/
def Obligations.EncStallChangesNothing : Prop :=
  ∀ (c : Config) (m : Chip c), 8 ≤ c.W →
    m.inputs.rst = false → m.enc.state = .emit → m.inputs.outReady = false →
    exec .encStall ⟨c, m⟩ = .next ⟨c, m⟩ ∧ outValid m.enc = true ∧ cmdReady m.enc = false

/-- R74: ENC.EMIT delivers `{cont, low7(enc_rem)}` with last mark 0 and shifts the register; `enc_state` stays. With
`SIGNED = 0` the byte has bit 7 set; with `SIGNED = 1` and a negative `nxt` it has bit 7 clear. -/
def Obligations.EncEmitDeliversOneByte : Prop :=
  ∀ (c : Config) (m : Chip c), 8 ≤ c.W →
    m.inputs.rst = false → m.enc.state = .emit → m.inputs.outReady = true → fin c.signed m.enc.rem = false →
    exec .encEmit ⟨c, m⟩ =
        .next ⟨c, { m with
          enc := { state := .emit, rem := shr7 c.signed m.enc.rem }
          chan := { m.chan with out :=
            m.chan.out ++ [(BitVec.ofBool (gt0 c.signed (shr7 c.signed m.enc.rem)) ++ low7 m.enc.rem, false)] } }⟩ ∧
      m.outTransfer = true ∧
      (c.signed = false → gt0 c.signed (shr7 c.signed m.enc.rem) = true) ∧
      (c.signed = true → (shr7 c.signed m.enc.rem).msb = true → gt0 c.signed (shr7 c.signed m.enc.rem) = false)

/-- R75: ENC.EMITL delivers the last byte, `zext_8(enc_rem[6:0])`, with last mark 1; `enc_rem` becomes 0 and the encoder
is idle. A command presented in this cycle is not accepted. -/
def Obligations.EncEmitlDeliversTheLastByte : Prop :=
  ∀ (c : Config) (m : Chip c), 8 ≤ c.W →
    m.inputs.rst = false → m.enc.state = .emit → m.inputs.outReady = true → fin c.signed m.enc.rem = true →
    exec .encEmitl ⟨c, m⟩ =
        .next ⟨c, { m with
          enc := { state := .idle, rem := 0#c.W }
          chan := { m.chan with out := m.chan.out ++ [((m.enc.rem.setWidth 7).setWidth 8, true)] } }⟩ ∧
      m.outTransfer = true ∧ m.cmdTransfer = false ∧ m.enc.rem.toNat < 2 ^ 7 ∧
      outData c.signed m.enc = (m.enc.rem.setWidth 7).setWidth 8

/-! ### The decoder's operations -/

/-- R94: DEC.WAIT changes no register and transfers nothing; `in_ready = 1`, `res_valid = 0`. -/
def Obligations.DecWaitChangesNothing : Prop :=
  ∀ (c : Config) (m : Chip c), 8 ≤ c.W →
    m.inputs.rst = false → m.dec.state = .accum → m.inputs.inValid = false →
    exec .decWait ⟨c, m⟩ = .next ⟨c, m⟩ ∧ inReady m.dec = true ∧ resValid m.dec = false

/-- R95, R96: DEC.CONT takes the byte, ORs its group in at the position, sets `dec_ovf` if a 1 bit is dropped, and
advances the position with saturation at `NG`; `dec_state` and `dec_err` stay. -/
def Obligations.DecContPlacesTheGroup : Prop :=
  ∀ (c : Config) (m : Chip c), 8 ≤ c.W →
    m.inputs.rst = false → m.dec.state = .accum → m.inputs.inValid = true → m.inputs.inEos = false →
    m.inputs.inData.getLsbD 7 = true →
    ∃ d : Decoder c.W,
      exec .decCont ⟨c, m⟩ =
        .next ⟨c, { m with
          dec := d
          chan := { m.chan with tok := m.chan.tok ++ [.byte m.inputs.inData] } }⟩ ∧
      d.acc = m.dec.acc ||| BitVec.ofNat c.W ((m.inputs.inData.setWidth 7).toNat * 2 ^ (7 * m.dec.idx.val)) ∧
      d.ovf = (m.dec.ovf || decide (2 ^ c.W ≤ (m.inputs.inData.setWidth 7).toNat * 2 ^ (7 * m.dec.idx.val))) ∧
      d.idx.val = (if m.dec.idx.val < ng c.W then m.dec.idx.val + 1 else ng c.W) ∧
      d.state = .accum ∧ d.err = m.dec.err ∧
      m.tokTransfer = true

/-- R95, R97: DEC.TERM takes the byte, ORs its group in, sets `dec_ovf` if a 1 bit is dropped, and goes to `RESULT`;
`dec_idx` and `dec_err` stay, and the result is offered from the next cycle. -/
def Obligations.DecTermEndsTheDecode : Prop :=
  ∀ (c : Config) (m : Chip c), 8 ≤ c.W →
    m.inputs.rst = false → m.dec.state = .accum → m.inputs.inValid = true → m.inputs.inEos = false →
    m.inputs.inData.getLsbD 7 = false →
    ∃ d : Decoder c.W,
      exec .decTerm ⟨c, m⟩ =
        .next ⟨c, { m with
          dec := d
          chan := { m.chan with tok := m.chan.tok ++ [.byte m.inputs.inData] } }⟩ ∧
      d.acc = m.dec.acc ||| BitVec.ofNat c.W ((m.inputs.inData.setWidth 7).toNat * 2 ^ (7 * m.dec.idx.val)) ∧
      d.ovf = (m.dec.ovf || decide (2 ^ c.W ≤ (m.inputs.inData.setWidth 7).toNat * 2 ^ (7 * m.dec.idx.val))) ∧
      d.idx = m.dec.idx ∧ d.state = .result ∧ d.err = m.dec.err ∧
      resValid d = true ∧ resOffered d = { value := d.acc, err := m.dec.err, ovf := d.ovf } ∧
      m.tokTransfer = true ∧ m.resTransfer = false

/-- R98, R123: DEC.EOS always raises TruncatedInput: the accumulation and `dec_ovf` are cleared, `dec_err` is set, the
decoder goes to `RESULT`, `dec_idx` is held and no encoder register changes; `in_data` is not read; the error is offered
from the next cycle. -/
def Obligations.DecEosRaisesTruncatedInput : Prop :=
  ∀ (c : Config) (m : Chip c), 8 ≤ c.W →
    m.inputs.rst = false → m.dec.state = .accum → m.inputs.inValid = true → m.inputs.inEos = true →
    ∃ d : Decoder c.W,
      exec .decEos ⟨c, m⟩ = .next ⟨c, { m with dec := d, chan := { m.chan with tok := m.chan.tok ++ [.eos] } }⟩ ∧
      d = { state := .result, acc := 0#c.W, idx := m.dec.idx, err := true, ovf := false } ∧
      resValid d = true ∧ resOffered d = { value := 0#c.W, err := true, ovf := false } ∧
      m.tokTransfer = true

/-- R101: DEC.HOLD changes no register and transfers nothing, a token presented included; the result is offered. -/
def Obligations.DecHoldChangesNothing : Prop :=
  ∀ (c : Config) (m : Chip c), 8 ≤ c.W →
    m.inputs.rst = false → m.dec.state = .result → m.inputs.resReady = false →
    exec .decHold ⟨c, m⟩ = .next ⟨c, m⟩ ∧ resValid m.dec = true ∧ inReady m.dec = false

/-- R99: DEC.RETIRE delivers `(dec_acc, dec_err, dec_ovf)` and leaves the decoder in the idle state; a token presented in
this cycle is not accepted. -/
def Obligations.DecRetireDeliversTheResult : Prop :=
  ∀ (c : Config) (m : Chip c), 8 ≤ c.W →
    m.inputs.rst = false → m.dec.state = .result → m.inputs.resReady = true →
    exec .decRetire ⟨c, m⟩ =
        .next ⟨c, { m with
          dec := { state := .accum, acc := 0#c.W, idx := 0, err := false, ovf := false }
          chan := { m.chan with res :=
            m.chan.res ++ [{ value := m.dec.acc, err := m.dec.err, ovf := m.dec.ovf }] } }⟩ ∧
      m.resTransfer = true ∧ m.tokTransfer = false

/-! ### Tokens, bytes and the command -/

/-- The effects of R53's classes, R95 to R98, with the instruction's own group as operand. That a token executed as an
instruction is presented for one cycle and stays on the ports is the model's choice (log entry 12, DEDUCED), and so is
that a varint byte executed as an instruction is that byte presented on the `in` channel (log entry 11, DEDUCED). -/
def Obligations.TokensAndBytesActOnTheDecoder : Prop :=
  ∀ (c : Config) (m : Chip c) (g : Group), 8 ≤ c.W → m.inputs.rst = false → m.dec.state = .accum →
    (∀ i ∈ [Instr.tokCont g, Instr.vbCont g],
      exec i ⟨c, m⟩ =
        .next ⟨c, { m with
          inputs := { m.inputs with inValid := true, inEos := false, inData := 1#1 ++ g }
          dec := { m.dec with
            acc := m.dec.acc ||| place c.W g m.dec.idx.val
            ovf := m.dec.ovf || drop c.W g m.dec.idx.val
            idx := satIncr m.dec.idx }
          chan := { m.chan with tok := m.chan.tok ++ [.byte (1#1 ++ g)] } }⟩) ∧
    (∀ i ∈ [Instr.tokTerm g, Instr.vbTerm g],
      exec i ⟨c, m⟩ =
        .next ⟨c, { m with
          inputs := { m.inputs with inValid := true, inEos := false, inData := 0#1 ++ g }
          dec := { m.dec with
            acc := m.dec.acc ||| place c.W g m.dec.idx.val
            ovf := m.dec.ovf || drop c.W g m.dec.idx.val
            state := .result }
          chan := { m.chan with tok := m.chan.tok ++ [.byte (0#1 ++ g)] } }⟩) ∧
    exec .tokEos ⟨c, m⟩ =
      .next ⟨c, { m with
        inputs := { m.inputs with inValid := true, inEos := true }
        dec := { m.dec with acc := 0#c.W, ovf := false, err := true, state := .result }
        chan := { m.chan with tok := m.chan.tok ++ [.eos] } }⟩

/-- R101 and R125 item 1: a token or byte presented while a result is offered is not accepted: the decoder holds its
result, or retires it and is idle; and in a reset cycle it is not accepted either. That the instruction then completes, as
the cycle in which it is presented and waits, is the model's choice (log entry 12, DEDUCED; log entry 11 for a varint
byte). -/
def Obligations.TokensWaitWhileAResultIsOffered : Prop :=
  ∀ (c : Config) (m : Chip c) (g : Group) (i : Instr), 8 ≤ c.W →
    i ∈ [Instr.tokCont g, Instr.tokTerm g, Instr.tokEos, Instr.vbCont g, Instr.vbTerm g] →
    (m.inputs.rst = true ∨ m.dec.state = .result) →
    ∃ t : Chip c, exec i ⟨c, m⟩ = .next ⟨c, t⟩ ∧ t.chan.tok = m.chan.tok ∧ t.enc = m.enc ∧
      t.chan.cmd = m.chan.cmd ∧ t.chan.out = m.chan.out ∧
      t.dec = (if m.inputs.rst = false ∧ m.inputs.resReady = false then m.dec
        else { state := .accum, acc := 0#c.W, idx := 0, err := false, ovf := false }) ∧
      t.chan.res = (if m.inputs.rst = false ∧ m.inputs.resReady = true then m.chan.res ++ [resOffered m.dec]
        else m.chan.res)

/-- R54, R72: presenting a `W`-bit value to an idle encoder loads it, negative or not. That ENCODE executed as an
instruction is the one cycle `CMD v + TAKE` in which it is requested (R63) is the model's choice (log entry 13). -/
def Obligations.EncodeCommandIsAcceptedWhenIdle : Prop :=
  ∀ (c : Config) (m : Chip c) (v : Nat), 8 ≤ c.W → v < 2 ^ c.W → m.inputs.rst = false → m.enc.state = .idle →
    exec (.encode v) ⟨c, m⟩ =
      .next ⟨c, { m with
        inputs := { m.inputs with cmdValid := true, cmdValue := BitVec.ofNat c.W v, outReady := true }
        enc := { state := .emit, rem := BitVec.ofNat c.W v }
        chan := { m.chan with cmd := m.chan.cmd ++ [BitVec.ofNat c.W v] } }⟩

/-- R43 item 2, R79: a command presented while another value is being encoded, or in a reset cycle, is not accepted. The
model's choices (log entry 13, DESIGN CHOICE): ENCODE executed as an instruction is the one cycle `CMD v + TAKE` of R63
and R62, so a byte of the value in progress is taken in it; and a number that is no `W`-bit value (R54) is refused as
`operandTooWide`. -/
def Obligations.EncodeCommandWaitsWhileBusy : Prop :=
  ∀ (c : Config) (m : Chip c) (v : Nat), 8 ≤ c.W →
    (v < 2 ^ c.W → (m.inputs.rst = true ∨ m.enc.state = .emit) →
      ∃ t : Chip c, exec (.encode v) ⟨c, m⟩ = .next ⟨c, t⟩ ∧ t.chan.cmd = m.chan.cmd ∧ t.dec = m.dec ∧
        t.enc = (if m.inputs.rst = true ∨ fin c.signed m.enc.rem = true then { state := .idle, rem := 0#c.W }
          else { state := .emit, rem := shr7 c.signed m.enc.rem }) ∧
        t.chan.out = (if m.inputs.rst = true then m.chan.out
          else m.chan.out ++ [(outData c.signed m.enc, outLast c.signed m.enc)])) ∧
    (2 ^ c.W ≤ v → exec (.encode v) ⟨c, m⟩ = .refused .operandTooWide)

/-! ### Frames -/

/-- What an encoder instruction leaves alone when it answers a next state (ENCODE being its one presented cycle, log entry
13, the model's choice): every decoder register, the decoder's channels,
the environment's script, the ports but those the command is presented on, and the parameters; of its own channels, `cmd`
grows by the command taken and `out` by the byte offered, or not at all (R10, R2, R31). -/
def Obligations.EncoderInstructionsFrame : Prop :=
  ∀ (c : Config) (m : Chip c) (i : Instr) (t : State),
    (i ∈ [Instr.encReset, .encIdle, .encLoad, .encStall, .encEmit, .encEmitl] ∨ ∃ v, i = .encode v) →
    exec i ⟨c, m⟩ = .next t →
    ∃ u : Chip c, t = ⟨c, u⟩ ∧ u.dec = m.dec ∧ u.env = m.env ∧ u.chan.tok = m.chan.tok ∧ u.chan.res = m.chan.res ∧
      (u.chan.cmd = m.chan.cmd ∨ u.chan.cmd = m.chan.cmd ++ [u.inputs.cmdValue]) ∧
      (u.chan.out = m.chan.out ∨ u.chan.out = m.chan.out ++ [(outData c.signed m.enc, outLast c.signed m.enc)]) ∧
      (∀ v, i = .encode v →
        u.inputs = { m.inputs with cmdValid := true, cmdValue := BitVec.ofNat c.W v, outReady := true }) ∧
      ((∀ v, i ≠ .encode v) → u.inputs = m.inputs)

/-- What a decoder instruction leaves alone when it answers a next state (a token or varint byte being its one presented
cycle, log entries 11 and 12, the model's choice): every encoder register, the encoder's channels,
the environment's script, the ports but those the token is presented on, and the parameters; of its own channels, `tok`
grows by the token taken and `res` by the result offered, or not at all (R10, R2, R31). -/
def Obligations.DecoderInstructionsFrame : Prop :=
  ∀ (c : Config) (m : Chip c) (i : Instr) (t : State) (g : Group),
    (i ∈ [Instr.decReset, .decWait, .decCont, .decTerm, .decEos, .decHold, .decRetire] ∨
      i ∈ [Instr.tokCont g, .tokTerm g, .tokEos, .vbCont g, .vbTerm g]) →
    exec i ⟨c, m⟩ = .next t →
    ∃ u : Chip c, t = ⟨c, u⟩ ∧ u.enc = m.enc ∧ u.env = m.env ∧ u.chan.cmd = m.chan.cmd ∧ u.chan.out = m.chan.out ∧
      (u.chan.tok = m.chan.tok ∨ u.chan.tok = m.chan.tok ++ [tokRead u.inputs]) ∧
      (u.chan.res = m.chan.res ∨ u.chan.res = m.chan.res ++ [resOffered m.dec]) ∧
      u.inputs =
        (if i ∈ [Instr.tokCont g, .vbCont g] then
          { m.inputs with inValid := true, inEos := false, inData := 1#1 ++ g }
        else if i ∈ [Instr.tokTerm g, .vbTerm g] then
          { m.inputs with inValid := true, inEos := false, inData := 0#1 ++ g }
        else if i = .tokEos then { m.inputs with inValid := true, inEos := true }
        else m.inputs)

/-! ### Operation selection and decoding -/

/-- R58, R61: each of the 32 values of ES matches exactly one row of the table, and the decoder of operations picks it. -/
def Obligations.EncoderSelectTableIsExact : Prop :=
  ∀ w : BitVec 5, (esRows.filter (fun r => r.hits w)).map (fun r => r.op) = [decodeEs w]

/-- R59, R61: each of the 64 values of DS matches exactly one row of the table, and the decoder of operations picks it. -/
def Obligations.DecoderSelectTableIsExact : Prop :=
  ∀ w : BitVec 6, (dsRows.filter (fun r => r.hits w)).map (fun r => r.op) = [decodeDs w]

/-- R53, R50: the class of a token or byte by mask and match, with the group its low seven bits spell. -/
def Obligations.TokenAndByteClassesByMask : Prop :=
  (∀ w : BitVec 9,
    (decodeTok w = .tokCont (w.extractLsb' 0 7) ↔ w &&& 0x180#9 = 0x080#9) ∧
    (decodeTok w = .tokTerm (w.extractLsb' 0 7) ↔ w &&& 0x180#9 = 0x000#9) ∧
    (decodeTok w = .tokEos ↔ w &&& 0x100#9 = 0x100#9)) ∧
  (∀ b : BitVec 8,
    (decodeVb b = .vbCont (b.extractLsb' 0 7) ↔ b &&& 0x80#8 = 0x80#8) ∧
    (decodeVb b = .vbTerm (b.extractLsb' 0 7) ↔ b &&& 0x80#8 = 0x00#8))

/-- Words written out from the tables of 30_encoding.md, one or two of each format. -/
def Obligations.DecodedWordsOfEachFormat : Prop :=
  decode .es 0b01010 = .ok .encEmit ∧ decode .es 0b01111 = .ok .encEmitl ∧
    decode .ds 0b001011 = .ok .decCont ∧ decode .ds 0b011110 = .ok .decHold ∧
    decode .tok 0b010101100 = .ok (.tokCont 0x2C#7) ∧ decode .tok 0b101010101 = .ok .tokEos ∧
    decode .vb 0xAC = .ok (.vbCont 0x2C#7) ∧ decode .vb 0x02 = .ok (.vbTerm 0x02#7) ∧
    decode (.cmd 16) 300 = .ok (.encode 300)

/-- Decoding the encoded word of a well-formed instruction, at any width, gives the instruction back. -/
def Obligations.DecodeOfEncodeIsTheInstruction : Prop :=
  ∀ (W : Nat) (i : Instr), i.wellFormed W = true → decode (encode W i).1 (encode W i).2 = .ok i

/-- R60: every word of every format is an instruction, and encoding it gives the word back in each bit the row reads (all
bits of a byte, of a byte token and of a command). -/
def Obligations.EveryWordOfAFormatIsAnInstruction : Prop :=
  ∀ (W : Nat) (f : Format) (w : Nat), 8 ≤ W → w < 2 ^ f.bits → (∀ V, f = .cmd V → V = W) →
    ∃ i : Instr, decode f w = .ok i ∧ i.wellFormed W = true ∧ (encode W i).1 = f ∧
      ((encode W i).2 = w ∨
        (i = .tokEos ∧ f = .tok ∧ w &&& 0x100 = 0x100) ∨
        (∃ r ∈ esRows, f = .es ∧ r.op.instr = i ∧ w &&& r.mask.toNat = (encode W i).2 &&& r.mask.toNat) ∨
        (∃ r ∈ dsRows, f = .ds ∧ r.op.instr = i ∧ w &&& r.mask.toNat = (encode W i).2 &&& r.mask.toNat))

/-! ### The step -/

/-- R6, R58, R59: when the cycle's ES word decodes to `i` and its DS word decodes to `j`, the step is `exec i`, then
`exec j`, then the environment driving the ports of the next cycle from what is left of its script. -/
def Obligations.StepRunsTheSelectedOperations : Prop :=
  ∀ (c : Config) (m u t : Chip c) (i j : Instr),
    decode .es m.esWord.toNat = .ok i → decode .ds m.dsWord.toNat = .ok j →
    exec i ⟨c, m⟩ = .next ⟨c, u⟩ → exec j ⟨c, u⟩ = .next ⟨c, t⟩ →
    step ⟨c, m⟩ = .next ⟨c, { t with
      env := advance m.transfers t.env
      inputs := drive c.signed t.enc t.dec (advance m.transfers t.env) }⟩

/-- What the model takes the execution of ENCODE, a token or a varint byte to be: what that agent does in a cycle whose
ports present it, as R62 and R63 write it. The model's choice and no rule of the spec: log entry 13 (DESIGN CHOICE) for
the command, 12 (DEDUCED) for tokens, 11 (DEDUCED) for varint bytes. -/
def Obligations.PresentedInstructionIsTheAgentsCycle : Prop :=
  ∀ (c : Config) (m : Chip c), 8 ≤ c.W →
    (m.inputs.cmdValid = true → m.inputs.outReady = true →
      exec (.encode m.inputs.cmdValue.toNat) ⟨c, m⟩ = exec m.encSelect.instr ⟨c, m⟩) ∧
    (∀ i : Instr, m.inputs.inValid = true →
      decode .tok (BitVec.ofBool m.inputs.inEos ++ m.inputs.inData).toNat = .ok i →
      exec i ⟨c, m⟩ = exec m.decSelect.instr ⟨c, m⟩) ∧
    (∀ i : Instr, m.inputs.inValid = true → m.inputs.inEos = false → decode .vb m.inputs.inData.toNat = .ok i →
      exec i ⟨c, m⟩ = exec m.decSelect.instr ⟨c, m⟩)

/-- Log entry 15, the model's own placement of a word for the next step: a select word is the one the cycle then has in
every bit its row reads, a token or byte is transferred in it, and a command is taken in it. -/
def Obligations.PlacedWordIsTheNextOperation : Prop :=
  ∀ (c : Config) (m : Chip c) (w : Nat), 8 ≤ c.W →
    (w < 2 ^ 5 → decode .es w = .ok (m.placeWord 5 w).encSelect.instr) ∧
    (w < 2 ^ 6 → decode .ds w = .ok (m.placeWord 6 w).decSelect.instr) ∧
    (w < 2 ^ 9 → (m.placeWord 9 w).tokTransfer = true ∧
      decode .tok w = .ok (match tokRead (m.placeWord 9 w).inputs with
        | .byte b => if b.getLsbD 7 then .tokCont (b.setWidth 7) else .tokTerm (b.setWidth 7)
        | .eos => .tokEos)) ∧
    (w < 2 ^ c.W → 16 < c.W →
      (m.placeWord c.W w).cmdTransfer = true ∧ (m.placeWord c.W w).inputs.cmdValue = BitVec.ofNat c.W w)

/-- R60, R61: no cycle of a hardware with `W >= 8` faults or is refused, whatever the registers and the ports hold, and no
cycle changes the parameters (R20). -/
def Obligations.EveryCycleHasANextState : Prop :=
  ∀ (c : Config) (m : Chip c), 8 ≤ c.W → ∃ t : Chip c, step ⟨c, m⟩ = .next ⟨c, t⟩

/-- R3: "A model must refuse `W < 8`": the step and every instruction are refused there. -/
def Obligations.WidthsBelowEightAreRefused : Prop :=
  ∀ (c : Config) (m : Chip c) (i : Instr), c.W < 8 →
    step ⟨c, m⟩ = .refused .unsupportedWidth ∧ exec i ⟨c, m⟩ = .refused .unsupportedWidth

/-- An operation asked for in a cycle that selects another one is refused by name (log entry 5, the model's choice); a
cycle selects exactly one operation of each agent (R58, R59). -/
def Obligations.UnselectedOperationsAreRefused : Prop :=
  ∀ (c : Config) (m : Chip c), 8 ≤ c.W →
    (∀ op : EncOp, exec op.instr ⟨c, m⟩ = .refused .notSelected ↔ op ≠ m.encSelect) ∧
    (∀ op : DecOp, exec op.instr ⟨c, m⟩ = .refused .notSelected ↔ op ≠ m.decSelect)

/-- R6: the two agents' steps of one cycle can be taken in either order with the same result. -/
def Obligations.AgentsCommuteWithinACycle : Prop :=
  ∀ (c : Config) (m a b : Chip c) (i j : Instr),
    i = m.encSelect.instr → j = m.decSelect.instr →
    exec i ⟨c, m⟩ = .next ⟨c, a⟩ → exec j ⟨c, m⟩ = .next ⟨c, b⟩ →
    ∃ t : Chip c, exec j ⟨c, a⟩ = .next ⟨c, t⟩ ∧ exec i ⟨c, b⟩ = .next ⟨c, t⟩

/-- R31, R35 to R38, R41: in a step, each channel's record grows by the data of that channel exactly when the channel has a
transfer, entire or not at all. -/
def Obligations.ChannelsMoveExactlyOnTransfers : Prop :=
  ∀ (c : Config) (m t : Chip c), step ⟨c, m⟩ = .next ⟨c, t⟩ →
    t.chan.cmd =
      m.chan.cmd ++ (if m.inputs.cmdValid ∧ m.enc.state = .idle ∧ ¬m.inputs.rst then [m.inputs.cmdValue] else []) ∧
    t.chan.out =
      m.chan.out ++ (if m.enc.state = .emit ∧ m.inputs.outReady ∧ ¬m.inputs.rst then
        [(outData c.signed m.enc, outLast c.signed m.enc)] else []) ∧
    t.chan.tok =
      m.chan.tok ++ (if m.inputs.inValid ∧ m.dec.state = .accum ∧ ¬m.inputs.rst then
        [if m.inputs.inEos then .eos else .byte m.inputs.inData] else []) ∧
    t.chan.res =
      m.chan.res ++ (if m.dec.state = .result ∧ m.inputs.resReady ∧ ¬m.inputs.rst then
        [{ value := m.dec.acc, err := m.dec.err, ovf := m.dec.ovf }] else [])

/-- R47: what is offered keeps its value until the cycle after a transfer or a reset. -/
def Obligations.OffersAreStableUntilTaken : Prop :=
  ∀ (c : Config) (m t : Chip c), step ⟨c, m⟩ = .next ⟨c, t⟩ → m.inputs.rst = false →
    (outValid m.enc = true → m.outTransfer = false →
      outValid t.enc = true ∧ outData c.signed t.enc = outData c.signed m.enc ∧
        outLast c.signed t.enc = outLast c.signed m.enc) ∧
    (resValid m.dec = true → m.resTransfer = false →
      resValid t.dec = true ∧ resOffered t.dec = resOffered m.dec)

/-- R12, R15, R16 as rules of the whole machine: only ENC.LOAD leads into `EMIT`, only ENC.EMITL and a reset out of it; only
DEC.TERM and DEC.EOS lead into `RESULT`, only DEC.RETIRE and a reset out of it; only DEC.EOS sets `dec_err`, only
DEC.RETIRE and a reset clear it. -/
def Obligations.OnlyTheseOperationsMoveTheAgents : Prop :=
  ∀ (c : Config) (m t : Chip c), step ⟨c, m⟩ = .next ⟨c, t⟩ →
    (m.enc.state = .idle → (t.enc.state = .emit ↔ m.encSelect = .load)) ∧
    (m.enc.state = .emit → (t.enc.state = .idle ↔ m.encSelect = .emitl ∨ m.encSelect = .reset)) ∧
    (m.dec.state = .accum → (t.dec.state = .result ↔ m.decSelect = .term ∨ m.decSelect = .eos)) ∧
    (m.dec.state = .result → (t.dec.state = .accum ↔ m.decSelect = .retire ∨ m.decSelect = .reset)) ∧
    (m.dec.err = false → (t.dec.err = true ↔ m.decSelect = .eos)) ∧
    (m.dec.err = true → (t.dec.err = false ↔ m.decSelect = .retire ∨ m.decSelect = .reset))

/-! ### Isolation -/

/-- R2, R132: what the encoder holds and has transferred after a step does not depend on any decoder register, any decoder
port or anything the decoder has transferred. -/
def Obligations.EncoderDoesNotSeeTheDecoder : Prop :=
  ∀ (c : Config) (m m' t t' : Chip c), step ⟨c, m⟩ = .next ⟨c, t⟩ → step ⟨c, m'⟩ = .next ⟨c, t'⟩ →
    m'.enc = m.enc → m'.chan.cmd = m.chan.cmd → m'.chan.out = m.chan.out → m'.inputs.rst = m.inputs.rst →
    m'.inputs.cmdValid = m.inputs.cmdValid → m'.inputs.cmdValue = m.inputs.cmdValue →
    m'.inputs.outReady = m.inputs.outReady →
    t'.enc = t.enc ∧ t'.chan.cmd = t.chan.cmd ∧ t'.chan.out = t.chan.out

/-- R2, R13, R105: what the decoder holds and has transferred after a step does not depend on any encoder register or port,
nor on `SIGNED`. -/
def Obligations.DecoderDoesNotSeeTheEncoderOrSigned : Prop :=
  ∀ (W : Nat) (a b : Bool) (m t : Chip { W := W, signed := a }) (m' t' : Chip { W := W, signed := b }),
    step ⟨_, m⟩ = .next ⟨_, t⟩ → step ⟨_, m'⟩ = .next ⟨_, t'⟩ →
    m'.dec = m.dec → m'.chan.tok = m.chan.tok → m'.chan.res = m.chan.res → m'.inputs.rst = m.inputs.rst →
    m'.inputs.inValid = m.inputs.inValid → m'.inputs.inData = m.inputs.inData → m'.inputs.inEos = m.inputs.inEos →
    m'.inputs.resReady = m.inputs.resReady →
    t'.dec = t.dec ∧ t'.chan.tok = t.chan.tok ∧ t'.chan.res = t.chan.res

/-- U8 of 93_implementation_defined.md: a step does not depend on `cmd_value` without a `cmd` transfer, on `in_data` without
the transfer of a byte, or on `in_eos` without an `in` transfer. -/
def Obligations.UnqualifiedInputsAreNotRead : Prop :=
  ∀ (c : Config) (m : Chip c) (v : BitVec c.W) (b : Byte) (e : Bool), 8 ≤ c.W →
    (m.cmdTransfer = false →
      step ⟨c, { m with inputs := { m.inputs with cmdValue := v } }⟩ = step ⟨c, m⟩) ∧
    (m.tokTransfer = false →
      step ⟨c, { m with inputs := { m.inputs with inData := b, inEos := e } }⟩ = step ⟨c, m⟩) ∧
    (m.inputs.inEos = true →
      step ⟨c, { m with inputs := { m.inputs with inData := b } }⟩ = step ⟨c, m⟩)

/-! ### Invariants -/

/-- The state right after reset meets I1 to I5 of R24. -/
def Obligations.InvariantHoldsAtReset : Prop := State.reset.Inv

/-- R24 I1 to I5: every step from a state that meets the invariants, whatever the ports hold, gives one that meets them. -/
def Obligations.InvariantIsKeptByEveryStep : Prop :=
  ∀ s t : State, s.Inv → step s = .next t → t.Inv

/-- R24: "In every cycle after a reset the following hold": I1 to I5, whatever the registers held before the reset and
whatever the environment drives; and so a result is never an error with a value or with `res_ovf = 1` (R55, R105), and in
`IDLE` the ungated outputs read `out_data = 0x00`, `out_last = 1` (R33). -/
def Obligations.EveryCycleAfterAResetMeetsTheInvariant : Prop :=
  ∀ (c : Config) (m : Chip c), AfterReset m →
    m.Inv ∧
    (m.dec.err = true → resOffered m.dec = { value := 0#c.W, err := true, ovf := false }) ∧
    (m.enc.state = .idle → outData c.signed m.enc = 0x00#8 ∧ outLast c.signed m.enc = true)

/-- R24 I6, R79, R149: with `SIGNED = 0`, whatever the environment drives, at most `NG` bytes are transferred before the
next command is taken, and after `NG` of them the encoder is idle. -/
def Obligations.EncoderIsIdleAfterAtMostNgBytes : Prop :=
  ∀ (c : Config) (n : Nat) (m t : Chip c), 8 ≤ c.W → c.signed = false →
    FreeRun (fun _ => True) n m t → t.chan.cmd = m.chan.cmd →
    t.chan.out.length ≤ m.chan.out.length + ng c.W ∧
      (t.chan.out.length = m.chan.out.length + ng c.W → t.enc.state = .idle)

/-! ### What the operations add up to -/

/-- R43 items 1 and 2, R76: in any run without a reset, the bytes delivered, followed by the bytes still owed, are those
owed at the start followed by `encode_ref` of every command taken, in order; stalls change nothing. For values whose
encoding ends: all with `SIGNED = 0`, the non-negative ones with `SIGNED = 1`. -/
def Obligations.DeliveredBytesAreTheEncodedCommands : Prop :=
  ∀ (c : Config) (n : Nat) (m t : Chip c), 8 ≤ c.W → FreeRun noReset n m t →
    ∃ vs : List (BitVec c.W), t.chan.cmd = m.chan.cmd ++ vs ∧
      ((m.enc.state = .emit → encodes c m.enc.rem) → (∀ v ∈ vs, encodes c v) →
        t.chan.out ++ t.encoderOwes = m.chan.out ++ m.encoderOwes ++ vs.flatMap (encodeRef c))

/-- R43 items 3 and 4, R102, R104, R14: in any run without a reset that starts with an idle decoder, the results delivered,
followed by the one offered, are those of `decode_ref` on the sequences the tokens taken present, in order, one a decode;
between tokens `dec_idx` is the number of continuation bytes of the decode in progress, saturated at `NG`. -/
def Obligations.DeliveredResultsAreTheDecodedTokens : Prop :=
  ∀ (c : Config) (n : Nat) (m t : Chip c), 8 ≤ c.W → FreeRun noReset n m t → m.dec = Decoder.atReset c.W →
    ∃ ts : List Token, t.chan.tok = m.chan.tok ++ ts ∧
      t.chan.res ++ t.decoderOffers = m.chan.res ++ (decodesOf c.W [] ts).1 ∧
      (t.dec.state = .accum → t.dec.idx.val = min (decodesOf c.W [] ts).2.length (ng c.W))

/-- R63, R76, R151: the stimulus `ENCODE v` presented to an idle encoder delivers exactly `encode_ref(v)` in `1 + L` cycles,
one byte a cycle after the loading cycle, and leaves the encoder idle with the rest of the script still to come. -/
def Obligations.EncodeProgramDeliversEncodeRef : Prop :=
  ∀ (c : Config) (m : Chip c) (v : BitVec c.W) (rest : List (Stim c.W)), 8 ≤ c.W → encodes c v →
    m.enc.state = .idle →
    ∃ t : Chip c, cycles (1 + (encodeRef c v).length) (State.load ⟨c, m⟩ (.encode v :: rest)) = .next ⟨c, t⟩ ∧
      t.enc = { state := .idle, rem := 0#c.W } ∧ t.env = rest ∧
      t.chan.cmd = m.chan.cmd ++ [v] ∧ t.chan.out = m.chan.out ++ encodeRef c v

/-- R63, R102, R151: the stimulus `DECODE bytes` presented to an idle decoder delivers exactly the result of
`decode_ref(bytes)`, one cycle a token and one for the result, takes no byte after the terminating one, and leaves the
decoder idle with the rest of the script still to come. -/
def Obligations.DecodeProgramDeliversDecodeRef : Prop :=
  ∀ (c : Config) (m : Chip c) (bytes : List Byte) (rest : List (Stim c.W)), 8 ≤ c.W →
    m.dec = Decoder.atReset c.W →
    ∃ (n : Nat) (toks : List Token) (t : Chip c),
      (match decodeRef c.W bytes with
        | .ok _ _ used => n = used + 1 ∧ toks = (bytes.take used).map .byte
        | .truncated => n = bytes.length + 2 ∧ toks = bytes.map .byte ++ [.eos]) ∧
      cycles n (State.load ⟨c, m⟩ (.decode bytes :: rest)) = .next ⟨c, t⟩ ∧
      t.dec = Decoder.atReset c.W ∧ t.env = rest ∧ t.chan.tok = m.chan.tok ++ toks ∧
      t.chan.res = m.chan.res ++ [(decodeRef c.W bytes).result]

/-- R78 item 5: decoding the bytes of `encode_ref(v)` gives `v` back, exactly and with every byte used. -/
def Obligations.DecodeRefOfEncodeRefIsTheValue : Prop :=
  ∀ (c : Config) (v : BitVec c.W), 8 ≤ c.W → encodes c v →
    decodeRef c.W ((encodeRef c v).map (·.1)) = .ok v false (encodeRef c v).length

/-- R78 items 2 to 4, R70, R51, R56: `encode_ref(v)` has `L(v) = max(1, ceil(bit_length(v) / 7))` bytes, at most `NG`; byte
`k` carries bits `7k` to `7k+6` of the value, bits at or above `W` read as 0; bit 7 is set and the last mark clear in every
byte but the last. -/
def Obligations.EncodeRefIsMinimalAndOrdered : Prop :=
  ∀ (c : Config) (v : BitVec c.W), 8 ≤ c.W → encodes c v →
    (encodeRef c v).length = encodedLength v ∧ encodedLength v ≤ ng c.W ∧
    ∀ (k : Nat) (b : Byte) (last : Bool), (encodeRef c v)[k]? = some (b, last) →
      last = decide (k + 1 = encodedLength v) ∧ b.getLsbD 7 = !last ∧
      ∀ j : Nat, j < 7 → b.getLsbD j = v.getLsbD (7 * k + j)

/-- R90: `decode_ref` fails exactly on the lists with no terminating byte; else it stops at the first one, and the value is
the number the consumed bytes spell modulo `2^W`, with `ovf = 1` exactly when that number is `2^W` or more. -/
def Obligations.DecodeRefIsTheSpelledNumber : Prop :=
  ∀ (W : Nat) (bytes : List Byte), 8 ≤ W →
    match decodeRef W bytes with
    | .truncated => ∀ b ∈ bytes, b.getLsbD 7 = true
    | .ok value ovf used =>
      (∃ last : Byte, bytes[used - 1]? = some last ∧ last.getLsbD 7 = false) ∧ 1 ≤ used ∧
      (∀ b ∈ bytes.take (used - 1), b.getLsbD 7 = true) ∧
      value = BitVec.ofNat W (spelled (bytes.take used)) ∧
      ovf = decide (2 ^ W ≤ spelled (bytes.take used))

/-- R77: with `SIGNED = 1` a negative value being encoded never ends without a reset: through any run the encoder stays in
`EMIT` with a negative remainder and `fin = 0`, takes no command, and the `k`-th byte it delivers is `{0, rem_k[6:0]}`
with last mark 0, `rem_k` being the value shifted `k` times, which is what `enc_rem` holds after `k` bytes; from byte
`ceil((W-1)/7)` on `enc_rem` is all ones and every byte is `0x7F`. -/
def Obligations.NegativeEncodeNeverEnds : Prop :=
  ∀ (c : Config) (n : Nat) (m t : Chip c), 8 ≤ c.W → c.signed = true → m.enc.state = .emit → m.enc.rem.msb = true →
    FreeRun noReset n m t →
    t.enc.state = .emit ∧ t.enc.rem.msb = true ∧ fin c.signed t.enc.rem = false ∧ t.chan.cmd = m.chan.cmd ∧
    ∃ bytes : List Byte, t.chan.out = m.chan.out ++ bytes.map (fun b => (b, false)) ∧
      t.enc.rem = (shr7 true)^[bytes.length] m.enc.rem ∧
      ((c.W - 1 + 6) / 7 ≤ bytes.length → t.enc.rem = BitVec.allOnes c.W) ∧
      (∀ (k : Nat) (b : Byte), bytes[k]? = some b → b = 0#1 ++ low7 ((shr7 true)^[k] m.enc.rem)) ∧
      (∀ b ∈ bytes, b.getLsbD 7 = false) ∧ (∀ b ∈ bytes.drop ((c.W - 1 + 6) / 7), b = 0x7F#8)

/-- R78 item 5 on the machine: the stimulus `ENCODE v`, then `DECODE` of the bytes that delivers, on an idle hardware
delivers the result `v` with no error and no dropped bit. -/
def Obligations.EncodeThenDecodeReturnsTheValue : Prop :=
  ∀ (c : Config) (m : Chip c) (v : BitVec c.W), 8 ≤ c.W → encodes c v → m.enc.state = .idle →
    m.dec = Decoder.atReset c.W →
    ∃ t : Chip c,
      cycles (2 * (encodeRef c v).length + 2)
        (State.load ⟨c, m⟩ [.encode v, .decode ((encodeRef c v).map (·.1))]) = .next ⟨c, t⟩ ∧
      t.chan.res = m.chan.res ++ [{ value := v, err := false, ovf := false }] ∧
      t.enc = Encoder.atReset c.W ∧ t.dec = Decoder.atReset c.W

end
end

