-- ==== Sys2Proof/Laws/Operands.lean ====
section
/-! SUPPORT. Small facts about the operands and the flags: a byte is its continuation bit and its group, and what the
comparisons with zero say. -/

namespace Sys2Proof.Machine

@[simp] theorem groupOf_byteOf (b : Bool) (g : Group) : groupOf (byteOf b g) = g := by
  revert b g; decide

@[simp] theorem contBit_byteOf (b : Bool) (g : Group) : contBit (byteOf b g) = b := by
  revert b g; decide

theorem byteOf_contBit_groupOf (b : Byte) : byteOf (contBit b) (groupOf b) = b := by
  revert b; decide

@[simp] theorem eq0_eq_true_iff {W : Nat} (x : BitVec W) : eq0 x = true ↔ x = 0#W := by
  simp [eq0]

@[simp] theorem eq0_eq_false_iff {W : Nat} (x : BitVec W) : eq0 x = false ↔ x ≠ 0#W := by
  simp [eq0]

theorem gt0_unsigned {W : Nat} (x : BitVec W) : gt0 false x = !eq0 x := by
  simp only [gt0, eq0, bne, Bool.false_eq_true, if_false]

theorem gt0_signed {W : Nat} (x : BitVec W) : gt0 true x = (!x.msb && !eq0 x) := by
  simp only [gt0, eq0, bne, if_true]

theorem shr7_unsigned_toNat {W : Nat} (x : BitVec W) : (shr7 false x).toNat = x.toNat / 2 ^ 7 := by
  simp [shr7, BitVec.toNat_ushiftRight, Nat.shiftRight_eq_div_pow]

/-- Below the sign bit both shifts are the same. -/
theorem shr7_of_msb_false {W : Nat} (signed : Bool) {x : BitVec W} (h : x.msb = false) :
    shr7 signed x = shr7 false x := by
  cases signed
  · rfl
  · simp [shr7, BitVec.sshiftRight_eq_of_msb_false h]

theorem low7_toNat {W : Nat} (x : BitVec W) : (low7 x).toNat = x.toNat % 2 ^ 7 := by
  simp [low7]

/-- `fin` says that nothing is left (R19). -/
theorem shr7_of_fin {W : Nat} {signed : Bool} {x : BitVec W} (h : fin signed x = true) : shr7 signed x = 0#W := by
  simpa [fin, nxt] using h

theorem gt0_zero {W : Nat} (signed : Bool) : gt0 signed (0#W) = false := by
  cases signed <;> simp [gt0]

/-- The last byte has its continuation flag clear (R75). -/
theorem cont_of_fin {W : Nat} {signed : Bool} {x : BitVec W} (h : fin signed x = true) : cont signed x = false := by
  rw [cont, nxt, shr7_of_fin h, gt0_zero]

theorem low7_getLsbD {W : Nat} (x : BitVec W) (k : Nat) (h : k < 7) : (low7 x).getLsbD k = x.getLsbD k := by
  simp [low7, h]

theorem satIncr_val {n : Nat} (i : Fin (n + 1)) : (satIncr i).val = min (i.val + 1) n := by
  unfold satIncr
  split <;> rename_i h <;> simp only <;> omega

end Sys2Proof.Machine
end

