-- ==== Sys2Proof/Laws/State.lean ====
section
/-! SUPPORT. One lemma for each field and each update of the chip, so that no proof unfolds an update. -/

namespace Sys2Proof.Machine

variable {c : Config} (m : Chip c)

@[simp] theorem Chip.setEnc_inputs (e : Encoder c.W) : (m.setEnc e).inputs = m.inputs := rfl
@[simp] theorem Chip.setEnc_enc (e : Encoder c.W) : (m.setEnc e).enc = e := rfl
@[simp] theorem Chip.setEnc_dec (e : Encoder c.W) : (m.setEnc e).dec = m.dec := rfl
@[simp] theorem Chip.setEnc_chan (e : Encoder c.W) : (m.setEnc e).chan = m.chan := rfl
@[simp] theorem Chip.setEnc_env (e : Encoder c.W) : (m.setEnc e).env = m.env := rfl

@[simp] theorem Chip.setDec_inputs (d : Decoder c.W) : (m.setDec d).inputs = m.inputs := rfl
@[simp] theorem Chip.setDec_enc (d : Decoder c.W) : (m.setDec d).enc = m.enc := rfl
@[simp] theorem Chip.setDec_dec (d : Decoder c.W) : (m.setDec d).dec = d := rfl
@[simp] theorem Chip.setDec_chan (d : Decoder c.W) : (m.setDec d).chan = m.chan := rfl
@[simp] theorem Chip.setDec_env (d : Decoder c.W) : (m.setDec d).env = m.env := rfl

@[simp] theorem Chip.setInputs_inputs (p : Inputs c.W) : (m.setInputs p).inputs = p := rfl
@[simp] theorem Chip.setInputs_enc (p : Inputs c.W) : (m.setInputs p).enc = m.enc := rfl
@[simp] theorem Chip.setInputs_dec (p : Inputs c.W) : (m.setInputs p).dec = m.dec := rfl
@[simp] theorem Chip.setInputs_chan (p : Inputs c.W) : (m.setInputs p).chan = m.chan := rfl
@[simp] theorem Chip.setInputs_env (p : Inputs c.W) : (m.setInputs p).env = m.env := rfl

@[simp] theorem Chip.setEnv_inputs (l : List (Stim c.W)) : (m.setEnv l).inputs = m.inputs := rfl
@[simp] theorem Chip.setEnv_enc (l : List (Stim c.W)) : (m.setEnv l).enc = m.enc := rfl
@[simp] theorem Chip.setEnv_dec (l : List (Stim c.W)) : (m.setEnv l).dec = m.dec := rfl
@[simp] theorem Chip.setEnv_chan (l : List (Stim c.W)) : (m.setEnv l).chan = m.chan := rfl
@[simp] theorem Chip.setEnv_env (l : List (Stim c.W)) : (m.setEnv l).env = l := rfl

@[simp] theorem Chip.cmdTaken_inputs (v : BitVec c.W) : (m.cmdTaken v).inputs = m.inputs := rfl
@[simp] theorem Chip.cmdTaken_enc (v : BitVec c.W) : (m.cmdTaken v).enc = m.enc := rfl
@[simp] theorem Chip.cmdTaken_dec (v : BitVec c.W) : (m.cmdTaken v).dec = m.dec := rfl
@[simp] theorem Chip.cmdTaken_chan (v : BitVec c.W) : (m.cmdTaken v).chan = { m.chan with cmd := m.chan.cmd ++ [v] } := rfl
@[simp] theorem Chip.cmdTaken_env (v : BitVec c.W) : (m.cmdTaken v).env = m.env := rfl

@[simp] theorem Chip.byteWrite_inputs (b : Byte) (l : Bool) : (m.byteWrite b l).inputs = m.inputs := rfl
@[simp] theorem Chip.byteWrite_enc (b : Byte) (l : Bool) : (m.byteWrite b l).enc = m.enc := rfl
@[simp] theorem Chip.byteWrite_dec (b : Byte) (l : Bool) : (m.byteWrite b l).dec = m.dec := rfl
@[simp] theorem Chip.byteWrite_chan (b : Byte) (l : Bool) : (m.byteWrite b l).chan = { m.chan with out := m.chan.out ++ [(b, l)] } := rfl
@[simp] theorem Chip.byteWrite_env (b : Byte) (l : Bool) : (m.byteWrite b l).env = m.env := rfl

@[simp] theorem Chip.tokTaken_inputs (t : Token) : (m.tokTaken t).inputs = m.inputs := rfl
@[simp] theorem Chip.tokTaken_enc (t : Token) : (m.tokTaken t).enc = m.enc := rfl
@[simp] theorem Chip.tokTaken_dec (t : Token) : (m.tokTaken t).dec = m.dec := rfl
@[simp] theorem Chip.tokTaken_chan (t : Token) : (m.tokTaken t).chan = { m.chan with tok := m.chan.tok ++ [t] } := rfl
@[simp] theorem Chip.tokTaken_env (t : Token) : (m.tokTaken t).env = m.env := rfl

@[simp] theorem Chip.resWrite_inputs (r : Result c.W) : (m.resWrite r).inputs = m.inputs := rfl
@[simp] theorem Chip.resWrite_enc (r : Result c.W) : (m.resWrite r).enc = m.enc := rfl
@[simp] theorem Chip.resWrite_dec (r : Result c.W) : (m.resWrite r).dec = m.dec := rfl
@[simp] theorem Chip.resWrite_chan (r : Result c.W) : (m.resWrite r).chan = { m.chan with res := m.chan.res ++ [r] } := rfl
@[simp] theorem Chip.resWrite_env (r : Result c.W) : (m.resWrite r).env = m.env := rfl

end Sys2Proof.Machine
end

