-- ==== Sys2Proof/Laws/Ops.lean ====
section
/-! SUPPORT. What the shared operations can do, said once: the operation a cycle selects, in terms of the ports and
the registers, and when the guard of an agent's operations answers a next state. -/

namespace Sys2Proof.Machine

/-- The operation the encoder performs, read off the ports and the registers (R58). -/
theorem Chip.encSelect_eq {c : Config} (m : Chip c) :
    m.encSelect =
      if m.inputs.rst then .reset
      else
        match m.enc.state with
        | .idle => if m.inputs.cmdValid then .load else .idle
        | .emit =>
          if m.inputs.outReady then (if fin c.signed m.enc.rem then .emitl else .emit) else .stall := by
  have key : ∀ r v o f : Bool, ∀ st : EncState,
      decodeEs (BitVec.ofBool r ++ BitVec.ofBool (st == .emit) ++ BitVec.ofBool v ++ BitVec.ofBool o ++
        BitVec.ofBool f) =
      if r then EncOp.reset
      else match st with
        | .idle => if v then .load else .idle
        | .emit => if o then (if f then .emitl else .emit) else .stall := by
    intro r v o f st
    cases st <;> revert r v o f <;> decide
  exact key _ _ _ _ _

/-- The operation the decoder performs, read off the ports and the registers (R59). -/
theorem Chip.decSelect_eq {c : Config} (m : Chip c) :
    m.decSelect =
      if m.inputs.rst then .reset
      else
        match m.dec.state with
        | .accum =>
          if m.inputs.inValid then
            (if m.inputs.inEos then .eos else if contBit m.inputs.inData then .cont else .term)
          else .wait
        | .result => if m.inputs.resReady then .retire else .hold := by
  have key : ∀ r v e k a : Bool, ∀ st : DecState,
      decodeDs (BitVec.ofBool r ++ BitVec.ofBool (st == .result) ++ BitVec.ofBool v ++ BitVec.ofBool e ++
        BitVec.ofBool k ++ BitVec.ofBool a) =
      if r then DecOp.reset
      else match st with
        | .accum => if v then (if e then .eos else if k then .cont else .term) else .wait
        | .result => if a then .retire else .hold := by
    intro r v e k a st
    cases st <;> revert r v e k a <;> decide
  exact key _ _ _ _ _ _

/-- The encoder's guard answers a next state exactly at a supported width in a cycle that selects the operation. -/
theorem encOperation_eq_next_iff {op : EncOp} {s t : State} {after : Chip s.cfg} :
    encOperation op s after = .next t ↔
      s.cfg.supported = true ∧ s.chip.encSelect = op ∧ t = { cfg := s.cfg, chip := after } := by
  unfold encOperation
  split
  · split
    · exact ⟨fun h => ⟨‹_›, ‹_›, (Host.Outcome.next.inj h).symm⟩, fun h => congrArg _ h.2.2.symm⟩
    · exact ⟨fun h => (nomatch h), fun h => absurd h.2.1 ‹_›⟩
  · exact ⟨fun h => (nomatch h), fun h => absurd h.1 ‹_›⟩

/-- The decoder's guard answers a next state exactly at a supported width in a cycle that selects the operation. -/
theorem decOperation_eq_next_iff {op : DecOp} {s t : State} {after : Chip s.cfg} :
    decOperation op s after = .next t ↔
      s.cfg.supported = true ∧ s.chip.decSelect = op ∧ t = { cfg := s.cfg, chip := after } := by
  unfold decOperation
  split
  · split
    · exact ⟨fun h => ⟨‹_›, ‹_›, (Host.Outcome.next.inj h).symm⟩, fun h => congrArg _ h.2.2.symm⟩
    · exact ⟨fun h => (nomatch h), fun h => absurd h.2.1 ‹_›⟩
  · exact ⟨fun h => (nomatch h), fun h => absurd h.1 ‹_›⟩

theorem encOperation_selected {op : EncOp} {s : State} (after : Chip s.cfg) (supported : s.cfg.supported = true)
    (selected : s.chip.encSelect = op) : encOperation op s after = .next { cfg := s.cfg, chip := after } := by
  simp [encOperation, supported, selected]

theorem decOperation_selected {op : DecOp} {s : State} (after : Chip s.cfg) (supported : s.cfg.supported = true)
    (selected : s.chip.decSelect = op) : decOperation op s after = .next { cfg := s.cfg, chip := after } := by
  simp [decOperation, supported, selected]

/-- A configuration is supported from width 8 on (R3). -/
@[simp] theorem Config.supported_iff (c : Config) : c.supported = true ↔ 8 ≤ c.W := by
  simp [Config.supported]

end Sys2Proof.Machine
end

