-- ==== Sys2Proof/Laws/PerInstr.lean ====
section
/-! SUPPORT. The family EncodedWordFits: the encoded word of a well-formed instruction is a word of its format, one
lemma for each constructor of Instr. -/

namespace Sys2Proof.Laws.EncodedWordFits

/-- The encoder's word has no 1 bit above its format's width. -/
def Statement (i : Instr) : Prop :=
  ∀ W : Nat, i.wellFormed W = true → (Sys2Proof.encode W i).2 < 2 ^ (Sys2Proof.encode W i).1.bits

theorem encode (v : Nat) : Statement (.encode v) := fun W h => by
  simpa [Instr.wellFormed, Instr.operandFits, Sys2Proof.encode, Format.bits] using And.right (by
    simpa [Instr.wellFormed, Instr.operandFits] using h : 8 ≤ W ∧ v < 2 ^ W)

theorem encReset : Statement .encReset := fun _ _ => show 0b10000 < 2 ^ 5 by decide
theorem encIdle : Statement .encIdle := fun _ _ => show 0b00000 < 2 ^ 5 by decide
theorem encLoad : Statement .encLoad := fun _ _ => show 0b00100 < 2 ^ 5 by decide
theorem encStall : Statement .encStall := fun _ _ => show 0b01000 < 2 ^ 5 by decide
theorem encEmit : Statement .encEmit := fun _ _ => show 0b01010 < 2 ^ 5 by decide
theorem encEmitl : Statement .encEmitl := fun _ _ => show 0b01011 < 2 ^ 5 by decide
theorem decReset : Statement .decReset := fun _ _ => show 0b100000 < 2 ^ 6 by decide
theorem decWait : Statement .decWait := fun _ _ => show 0b000000 < 2 ^ 6 by decide
theorem decCont : Statement .decCont := fun _ _ => show 0b001010 < 2 ^ 6 by decide
theorem decTerm : Statement .decTerm := fun _ _ => show 0b001000 < 2 ^ 6 by decide
theorem decEos : Statement .decEos := fun _ _ => show 0b001100 < 2 ^ 6 by decide
theorem decHold : Statement .decHold := fun _ _ => show 0b010000 < 2 ^ 6 by decide
theorem decRetire : Statement .decRetire := fun _ _ => show 0b010001 < 2 ^ 6 by decide
theorem tokCont (g : Group) : Statement (.tokCont g) := fun _ _ => (0b01#2 ++ g).isLt
theorem tokTerm (g : Group) : Statement (.tokTerm g) := fun _ _ => (0b00#2 ++ g).isLt
theorem tokEos : Statement .tokEos := fun _ _ => show 0b100000000 < 2 ^ 9 by decide
theorem vbCont (g : Group) : Statement (.vbCont g) := fun _ _ => (1#1 ++ g).isLt
theorem vbTerm (g : Group) : Statement (.vbTerm g) := fun _ _ => (0#1 ++ g).isLt

end Sys2Proof.Laws.EncodedWordFits
end

