-- ==== Sys2Proof/Laws/Step.lean ====
section
/-! SUPPORT. A step taken apart once: what the encoder's selected operation makes of the chip, what the decoder's
makes of it, and the environment's part. Proofs about `step` cite `step_eq` and do not unfold the meanings. -/

namespace Sys2Proof.Machine

/-- The chip after the encoder's operation of this cycle. -/
def Chip.afterEnc {c : Config} (m : Chip c) : Chip c :=
  match m.encSelect with
  | .reset => m.setEnc (Encoder.atReset c.W)
  | .idle => m
  | .load => (m.cmdTaken m.inputs.cmdValue).setEnc { state := .emit, rem := m.inputs.cmdValue }
  | .stall => m
  | .emit =>
    (m.byteWrite (byteOf (cont c.signed m.enc.rem) (low7 m.enc.rem)) false).setEnc
      { m.enc with rem := nxt c.signed m.enc.rem }
  | .emitl =>
    (m.byteWrite (byteOf false (low7 m.enc.rem)) true).setEnc { state := .idle, rem := nxt c.signed m.enc.rem }

/-- The chip after the decoder's operation of this cycle. -/
def Chip.afterDec {c : Config} (m : Chip c) : Chip c :=
  match m.decSelect with
  | .reset => m.setDec (Decoder.atReset c.W)
  | .wait => m
  | .cont =>
    (m.tokTaken (tokRead m.inputs)).setDec
      { m.dec with
        acc := accNext m.dec (groupOf m.inputs.inData), ovf := ovfNext m.dec (groupOf m.inputs.inData)
        idx := satIncr m.dec.idx }
  | .term =>
    (m.tokTaken (tokRead m.inputs)).setDec
      { m.dec with
        acc := accNext m.dec (groupOf m.inputs.inData), ovf := ovfNext m.dec (groupOf m.inputs.inData)
        state := .result }
  | .eos => (m.tokTaken (tokRead m.inputs)).setDec (raiseTruncatedInput m.dec)
  | .hold => m
  | .retire => (m.resWrite (resOffered m.dec)).setDec (returnToIdle m.dec)

/-- The encoder's operation of this cycle, executed. -/
theorem exec_encSelect {c : Config} (m : Chip c) (supported : c.supported = true) :
    exec m.encSelect.instr { cfg := c, chip := m } = .next { cfg := c, chip := m.afterEnc } := by
  unfold Chip.afterEnc
  cases h : m.encSelect <;> exact encOperation_selected (s := { cfg := c, chip := m }) _ supported h

/-- The decoder's operation of this cycle, executed. -/
theorem exec_decSelect {c : Config} (m : Chip c) (supported : c.supported = true) :
    exec m.decSelect.instr { cfg := c, chip := m } = .next { cfg := c, chip := m.afterDec } := by
  unfold Chip.afterDec
  cases h : m.decSelect <;> exact decOperation_selected (s := { cfg := c, chip := m }) _ supported h

/-- The encoder's operation touches its registers and its two channels only (R2). -/
theorem Chip.afterEnc_frame {c : Config} (m : Chip c) :
    m.afterEnc.inputs = m.inputs ∧ m.afterEnc.dec = m.dec ∧ m.afterEnc.env = m.env ∧
      m.afterEnc.chan.tok = m.chan.tok ∧ m.afterEnc.chan.res = m.chan.res := by
  unfold Chip.afterEnc
  split <;> simp

/-- The decoder's operation touches its registers and its two channels only (R2). -/
theorem Chip.afterDec_frame {c : Config} (m : Chip c) :
    m.afterDec.inputs = m.inputs ∧ m.afterDec.enc = m.enc ∧ m.afterDec.env = m.env ∧
      m.afterDec.chan.cmd = m.chan.cmd ∧ m.afterDec.chan.out = m.chan.out := by
  unfold Chip.afterDec
  split <;> simp

/-- The encoder's registers after its operation, from the registers and the ports (R71 to R75, R140). -/
theorem Chip.afterEnc_enc {c : Config} (m : Chip c) :
    m.afterEnc.enc =
      if m.inputs.rst then { state := .idle, rem := 0#c.W }
      else match m.enc.state with
        | .idle => if m.inputs.cmdValid then { state := .emit, rem := m.inputs.cmdValue } else m.enc
        | .emit =>
          if m.inputs.outReady then
            if fin c.signed m.enc.rem then { state := .idle, rem := 0#c.W }
            else { state := .emit, rem := shr7 c.signed m.enc.rem }
          else m.enc := by
  unfold Chip.afterEnc
  rw [Chip.encSelect_eq]
  cases m.inputs.rst <;> cases hs : m.enc.state <;> cases m.inputs.cmdValid <;> cases m.inputs.outReady <;>
    cases hf : fin c.signed m.enc.rem <;> simp [Encoder.atReset, nxt, hs, shr7_of_fin, hf]

/-- The decoder's registers after its operation, from the registers and the ports (R94 to R101, R140). -/
theorem Chip.afterDec_dec {c : Config} (m : Chip c) :
    m.afterDec.dec =
      if m.inputs.rst then Decoder.atReset c.W
      else match m.dec.state with
        | .accum =>
          if m.inputs.inValid then
            if m.inputs.inEos then raiseTruncatedInput m.dec
            else if contBit m.inputs.inData then
              { m.dec with
                acc := accNext m.dec (groupOf m.inputs.inData), ovf := ovfNext m.dec (groupOf m.inputs.inData)
                idx := satIncr m.dec.idx }
            else
              { m.dec with
                acc := accNext m.dec (groupOf m.inputs.inData), ovf := ovfNext m.dec (groupOf m.inputs.inData)
                state := .result }
          else m.dec
        | .result => if m.inputs.resReady then Decoder.atReset c.W else m.dec := by
  unfold Chip.afterDec
  rw [Chip.decSelect_eq]
  cases m.inputs.rst <;> cases m.dec.state <;> cases m.inputs.inValid <;> cases m.inputs.inEos <;>
    cases contBit m.inputs.inData <;> cases m.inputs.resReady <;> simp [Decoder.atReset, returnToIdle]

/-- The command the encoder's operation takes (R37). -/
theorem Chip.afterEnc_cmd {c : Config} (m : Chip c) :
    m.afterEnc.chan.cmd = m.chan.cmd ++ if m.cmdTransfer then [m.inputs.cmdValue] else [] := by
  unfold Chip.afterEnc Chip.cmdTransfer cmdReady
  rw [Chip.encSelect_eq]
  cases m.inputs.rst <;> cases m.enc.state <;> cases m.inputs.cmdValid <;> cases m.inputs.outReady <;>
    cases fin c.signed m.enc.rem <;> simp

/-- The byte the encoder's operation delivers is the one it offers (R35). -/
theorem Chip.afterEnc_out {c : Config} (m : Chip c) :
    m.afterEnc.chan.out =
      m.chan.out ++ if m.outTransfer then [(outData c.signed m.enc, outLast c.signed m.enc)] else [] := by
  unfold Chip.afterEnc Chip.outTransfer outValid outData outLast
  rw [Chip.encSelect_eq]
  cases m.inputs.rst <;> cases m.enc.state <;> cases m.inputs.cmdValid <;> cases m.inputs.outReady <;>
    cases hf : fin c.signed m.enc.rem <;> simp [hf, cont_of_fin]

/-- The token the decoder's operation takes (R36). -/
theorem Chip.afterDec_tok {c : Config} (m : Chip c) :
    m.afterDec.chan.tok = m.chan.tok ++ if m.tokTransfer then [tokRead m.inputs] else [] := by
  unfold Chip.afterDec Chip.tokTransfer inReady
  rw [Chip.decSelect_eq]
  cases m.inputs.rst <;> cases m.dec.state <;> cases m.inputs.inValid <;> cases m.inputs.inEos <;>
    cases contBit m.inputs.inData <;> cases m.inputs.resReady <;> simp

/-- The result the decoder's operation delivers is the one it offers (R38). -/
theorem Chip.afterDec_res {c : Config} (m : Chip c) :
    m.afterDec.chan.res = m.chan.res ++ if m.resTransfer then [resOffered m.dec] else [] := by
  unfold Chip.afterDec Chip.resTransfer resValid
  rw [Chip.decSelect_eq]
  cases m.inputs.rst <;> cases m.dec.state <;> cases m.inputs.inValid <;> cases m.inputs.inEos <;>
    cases contBit m.inputs.inData <;> cases m.inputs.resReady <;> simp

/-- The decoder's operation does not see that the encoder's came first (R6). -/
theorem Chip.afterEnc_afterDec_dec {c : Config} (m : Chip c) : m.afterEnc.afterDec.dec = m.afterDec.dec := by
  obtain ⟨f1, f2, -, -, -⟩ := m.afterEnc_frame
  rw [Chip.afterDec_dec, Chip.afterDec_dec, f1, f2]

/-- One step, at a supported width. -/
theorem step_eq {c : Config} (m : Chip c) (supported : c.supported = true) :
    step { cfg := c, chip := m } =
      .next { cfg := c, chip := m.afterEnc.afterDec.endCycle m.transfers } := by
  simp only [step, exec_encSelect m supported, exec_decSelect m.afterEnc supported]

/-- One step, at a width the hardware does not have. -/
theorem step_unsupported {c : Config} (m : Chip c) (unsupported : c.supported = false) :
    step { cfg := c, chip := m } = .refused .unsupportedWidth := by
  unfold step
  cases m.encSelect <;>
    simp [EncOp.instr, exec, execEncReset, execEncIdle, execEncLoad, execEncStall, execEncEmit, execEncEmitl,
      encOperation, unsupported]

/-- A step that answers a next state was taken at a supported width, keeps the parameters, and gives this chip. -/
theorem step_next_iff {c : Config} {m : Chip c} {t : State} :
    step { cfg := c, chip := m } = .next t ↔
      c.supported = true ∧ t = { cfg := c, chip := m.afterEnc.afterDec.endCycle m.transfers } := by
  cases h : c.supported
  · simp [step_unsupported m h]
  · simp [step_eq m h, eq_comm]

@[simp] theorem Chip.endCycle_enc {c : Config} (m : Chip c) (t : Transfers) : (m.endCycle t).enc = m.enc := rfl

@[simp] theorem Chip.endCycle_dec {c : Config} (m : Chip c) (t : Transfers) : (m.endCycle t).dec = m.dec := rfl

@[simp] theorem Chip.endCycle_chan {c : Config} (m : Chip c) (t : Transfers) : (m.endCycle t).chan = m.chan := rfl

@[simp] theorem Chip.endCycle_env {c : Config} (m : Chip c) (t : Transfers) :
    (m.endCycle t).env = advance t m.env := rfl

@[simp] theorem Chip.endCycle_inputs {c : Config} (m : Chip c) (t : Transfers) :
    (m.endCycle t).inputs = drive c.signed m.enc m.dec (advance t m.env) := rfl

end Sys2Proof.Machine
end

