-- ==== Sys2Proof/Tests/Slice0.lean ====
section
/-! SUPPORT. Tests and witnesses. Every expected result is one of the spec's own vectors (95_test_vectors.md, named V-…),
or a word written out bit by bit from the tables of 30_encoding.md. -/

namespace Sys2Proof.Tests

open Sys2Proof Sys2Proof.Machine

abbrev u8 : Config := { W := 8, signed := false }
abbrev s8 : Config := { W := 8, signed := true }
abbrev u16 : Config := { W := 16, signed := false }
abbrev s16 : Config := { W := 16, signed := true }

/-- The input ports, all 0 but those a test names. -/
abbrev quiet (W : Nat) : Inputs W := Inputs.nop W

/-- A chip with these ports and these encoder registers; the decoder idle. -/
def encChip (c : Config) (p : Inputs c.W) (state : EncState) (rem : BitVec c.W) : Chip c :=
  { Chip.atReset c with inputs := p, enc := { state := state, rem := rem } }

/-- A chip with these ports and these decoder registers; the encoder idle. -/
def decChip (c : Config) (p : Inputs c.W) (d : Decoder c.W) : Chip c :=
  { Chip.atReset c with inputs := p, dec := d }

/-- What the channels have carried after one step. -/
def carried (s : State) : Option (List Nat × List (Byte × Bool) × List Token × List (Nat × Bool × Bool)) :=
  match step s with
  | .next t =>
    some (t.chip.chan.cmd.map BitVec.toNat, t.chip.chan.out, t.chip.chan.tok,
      t.chip.chan.res.map fun r => (r.value.toNat, r.err, r.ovf))
  | .fault _ => none
  | .refused _ => none

/-! ### WellFormed refuses what is ill-formed (R3, R54) -/

theorem test_wellFormed_refuses_a_value_wider_than_W : (Instr.encode 256).wellFormed 8 = false := by decide
theorem test_wellFormed_accepts_the_largest_value : (Instr.encode 255).wellFormed 8 = true := by decide
theorem test_wellFormed_refuses_a_width_below_8 :
    ([.encode 0, .encLoad, .decCont, .tokCont 0, .vbTerm 0].map (Instr.wellFormed 7)) = List.replicate 5 false := by
  decide

/-! ### Decoding: one word of each row, from the bits of its encoding, with ignored bits set where there are any -/

theorem test_decode_encode : decode (.cmd 16) 0b0000000100101100 = .ok (.encode 300) := by rfl
theorem test_decode_encReset : decode .es 0b11111 = .ok .encReset := by rfl
theorem test_decode_encIdle : decode .es 0b00011 = .ok .encIdle := by rfl
theorem test_decode_encLoad : decode .es 0b00111 = .ok .encLoad := by rfl
theorem test_decode_encStall : decode .es 0b01101 = .ok .encStall := by rfl
theorem test_decode_encEmit : decode .es 0b01110 = .ok .encEmit := by rfl
theorem test_decode_encEmitl : decode .es 0b01011 = .ok .encEmitl := by rfl
theorem test_decode_decReset : decode .ds 0b101101 = .ok .decReset := by rfl
theorem test_decode_decWait : decode .ds 0b000111 = .ok .decWait := by rfl
theorem test_decode_decCont : decode .ds 0b001011 = .ok .decCont := by rfl
theorem test_decode_decTerm : decode .ds 0b001001 = .ok .decTerm := by rfl
theorem test_decode_decEos : decode .ds 0b001110 = .ok .decEos := by rfl
theorem test_decode_decHold : decode .ds 0b011110 = .ok .decHold := by rfl
theorem test_decode_decRetire : decode .ds 0b010001 = .ok .decRetire := by rfl
theorem test_decode_tokCont : decode .tok 0b010101100 = .ok (.tokCont 0b0101100#7) := by rfl
theorem test_decode_tokTerm : decode .tok 0b000000010 = .ok (.tokTerm 0b0000010#7) := by rfl
theorem test_decode_tokEos : decode .tok 0b101010101 = .ok .tokEos := by rfl
theorem test_decode_vbCont : decode .vb 0b10101100 = .ok (.vbCont 0b0101100#7) := by rfl
theorem test_decode_vbTerm : decode .vb 0b00000010 = .ok (.vbTerm 0b0000010#7) := by rfl
theorem test_decode_rejects_a_sixth_bit : decode .es 0b100000 = .error .wordTooWide := by rfl
theorem test_decode_rejects_a_narrow_command : decode (.cmd 7) 1 = .error .unsupportedWidth := by rfl

/-! ### Primitives, V-A1 to V-A13 -/

theorem test_shr7 :
    shr7 false 0x012C#16 = 0x0002#16 ∧ shr7 false 0x8000#16 = 0x0100#16 ∧ shr7 true 0x8000#16 = 0xFF00#16 ∧
      shr7 true 0xFFFF#16 = 0xFFFF#16 ∧ shr7 true 0x7FFF#16 = 0x00FF#16 := by decide
theorem test_gt0 :
    gt0 false 0x8000#16 = true ∧ gt0 true 0x8000#16 = false ∧ gt0 false 0#16 = false ∧ gt0 true 0#16 = false := by
  decide
theorem test_place :
    place 8 0x7F 1 = 0x80#8 ∧ place 8 0x01 1 = 0x80#8 ∧ place 8 0x7F 2 = 0x00#8 ∧ place 32 0x0F 4 = 0xF0000000#32 ∧
      place 32 0x10 4 = 0#32 ∧ place 64 0x01 9 = 0x8000000000000000#64 := by decide
theorem test_drop :
    drop 8 0x7F 1 = true ∧ drop 8 0x01 1 = false ∧ drop 8 0x7F 2 = true ∧ drop 32 0x0F 4 = false ∧
      drop 32 0x10 4 = true ∧ drop 64 0x01 9 = false := by decide

/-! ### The encoder's operations, V-O1 to V-O13 -/

theorem test_encIdle : -- V-O1
    let m := encChip u16 { quiet 16 with outReady := true } .idle 0
    m.esWord = 0b00011#5 ∧ exec .encIdle ⟨_, m⟩ = .next ⟨_, m⟩ := ⟨by decide, by rfl⟩

theorem test_encLoad : -- V-O2
    let m := encChip u16 { quiet 16 with cmdValid := true, cmdValue := 0xFFFF } .idle 0
    m.esWord = 0b00101#5 ∧
      exec .encLoad ⟨_, m⟩ =
        .next ⟨_, { m with enc := ⟨.emit, 0xFFFF#16⟩, chan := { m.chan with cmd := [0xFFFF#16] } }⟩ :=
  ⟨by decide, by rfl⟩

theorem test_encLoad_gives_no_byte : -- V-O3
    let m := encChip u16 { quiet 16 with cmdValid := true, outReady := true } .idle 0
    m.esWord = 0b00111#5 ∧
      exec .encLoad ⟨_, m⟩ =
        .next ⟨_, { m with enc := ⟨.emit, 0#16⟩, chan := { m.chan with cmd := [0#16] } }⟩ := ⟨by decide, by rfl⟩

theorem test_encStall : -- V-O4
    let m := encChip u16 { quiet 16 with cmdValid := true, cmdValue := 5 } .emit 0xFFFF
    m.esWord = 0b01100#5 ∧ outData false m.enc = 0xFF#8 ∧ exec .encStall ⟨_, m⟩ = .next ⟨_, m⟩ :=
  ⟨by decide, by decide, by rfl⟩

theorem test_encEmit : -- V-O5
    let m := encChip u16 { quiet 16 with outReady := true } .emit 0xFFFF
    m.esWord = 0b01010#5 ∧
      exec .encEmit ⟨_, m⟩ =
        .next ⟨_, { m with enc := ⟨.emit, 0x01FF#16⟩, chan := { m.chan with out := [(0xFF#8, false)] } }⟩ :=
  ⟨by decide, by rfl⟩

theorem test_encEmit_of_a_negative_value : -- V-O11
    let m := encChip s16 { quiet 16 with outReady := true } .emit 0xFED4
    m.esWord = 0b01010#5 ∧
      exec .encEmit ⟨_, m⟩ =
        .next ⟨_, { m with enc := ⟨.emit, 0xFFFD#16⟩, chan := { m.chan with out := [(0x54#8, false)] } }⟩ :=
  ⟨by decide, by rfl⟩

theorem test_encEmitl_of_zero : -- V-O8
    let m := encChip u16 { quiet 16 with outReady := true } .emit 0
    m.esWord = 0b01011#5 ∧
      exec .encEmitl ⟨_, m⟩ =
        .next ⟨_, { m with enc := ⟨.idle, 0#16⟩, chan := { m.chan with out := [(0x00#8, true)] } }⟩ :=
  ⟨by decide, by rfl⟩

theorem test_encEmitl_takes_no_command : -- V-O9
    let m := encChip u16 { quiet 16 with outReady := true, cmdValid := true, cmdValue := 0x1234 } .emit 0x007F
    m.esWord = 0b01111#5 ∧
      exec .encEmitl ⟨_, m⟩ =
        .next ⟨_, { m with enc := ⟨.idle, 0#16⟩, chan := { m.chan with out := [(0x7F#8, true)] } }⟩ :=
  ⟨by decide, by rfl⟩

theorem test_encReset_transfers_no_byte : -- V-O13
    let m := encChip u16 { quiet 16 with rst := true, outReady := true } .emit 0x0003
    m.esWord = 0b11011#5 ∧ outData false m.enc = 0x03#8 ∧
      exec .encReset ⟨_, m⟩ = .next ⟨_, { m with enc := ⟨.idle, 0#16⟩ }⟩ := ⟨by decide, by decide, by rfl⟩

theorem test_encode_loads_the_value : -- V-O2 as a command
    (match exec (.encode 0xFFFF) State.reset with
      | .next t => (t.chip.enc.state, t.chip.enc.rem.toNat, t.chip.chan.cmd.map BitVec.toNat)
      | _ => (.idle, 0, [])) = (.emit, 0xFFFF, [0xFFFF]) := by rfl

theorem test_encode_refuses_a_wider_value : exec (.encode 0x10000) State.reset = .refused .operandTooWide := by rfl

/-! ### The decoder's operations, V-O20 to V-O36 -/

theorem test_decWait : -- V-O20
    let m := decChip u16 { quiet 16 with resReady := true } ⟨.accum, 0, 0, false, false⟩
    m.dsWord = 0b000001#6 ∧ exec .decWait ⟨_, m⟩ = .next ⟨_, m⟩ := ⟨by decide, by rfl⟩

theorem test_decCont : -- V-O22
    let m := decChip u16 { quiet 16 with inValid := true, inData := 0xFF } ⟨.accum, 0x007F, 1, false, false⟩
    m.dsWord = 0b001010#6 ∧
      exec .decCont ⟨_, m⟩ =
        .next ⟨_, { m with
          dec := ⟨.accum, 0x3FFF#16, 2, false, false⟩, chan := { m.chan with tok := [.byte 0xFF] } }⟩ :=
  ⟨by decide, by rfl⟩

theorem test_decCont_drops_a_bit : -- V-O24
    let m := decChip u16 { quiet 16 with inValid := true, inData := 0x84 } ⟨.accum, 0x3FFF, 2, false, false⟩
    exec .decCont ⟨_, m⟩ =
      .next ⟨_, { m with
        dec := ⟨.accum, 0x3FFF#16, 3, false, true⟩, chan := { m.chan with tok := [.byte 0x84] } }⟩ := by rfl

theorem test_decTerm_does_not_read_res_ready : -- V-O28
    let m := decChip u16 { quiet 16 with inValid := true, inData := 0x03, resReady := true }
      ⟨.accum, 0x3FFF, 2, false, false⟩
    m.dsWord = 0b001001#6 ∧
      exec .decTerm ⟨_, m⟩ =
        .next ⟨_, { m with
          dec := ⟨.result, 0xFFFF#16, 2, false, false⟩, chan := { m.chan with tok := [.byte 0x03] } }⟩ :=
  ⟨by decide, by rfl⟩

theorem test_decTerm_drops_a_bit : -- V-O29
    let m := decChip u16 { quiet 16 with inValid := true, inData := 0x07 } ⟨.accum, 0x3FFF, 2, false, false⟩
    exec .decTerm ⟨_, m⟩ =
      .next ⟨_, { m with
        dec := ⟨.result, 0xFFFF#16, 2, false, true⟩, chan := { m.chan with tok := [.byte 0x07] } }⟩ := by rfl

theorem test_decEos_of_the_empty_sequence : -- V-O30
    let m := decChip u16 { quiet 16 with inValid := true, inEos := true, inData := 0x55 }
      ⟨.accum, 0, 0, false, false⟩
    m.dsWord = 0b001100#6 ∧
      exec .decEos ⟨_, m⟩ =
        .next ⟨_, { m with dec := ⟨.result, 0#16, 0, true, false⟩, chan := { m.chan with tok := [.eos] } }⟩ :=
  ⟨by decide, by rfl⟩

theorem test_decEos_clears_value_and_flag : -- V-O31
    let m := decChip u16 { quiet 16 with inValid := true, inEos := true, inData := 0xFF }
      ⟨.accum, 0x3FFF, 3, false, true⟩
    m.dsWord = 0b001110#6 ∧
      exec .decEos ⟨_, m⟩ =
        .next ⟨_, { m with dec := ⟨.result, 0#16, 3, true, false⟩, chan := { m.chan with tok := [.eos] } }⟩ :=
  ⟨by decide, by rfl⟩

theorem test_decHold : -- V-O32
    let m := decChip u16 { quiet 16 with inValid := true, inData := 0x05 } ⟨.result, 0x012C, 1, false, false⟩
    m.dsWord = 0b011000#6 ∧ exec .decHold ⟨_, m⟩ = .next ⟨_, m⟩ := ⟨by decide, by rfl⟩

theorem test_decRetire : -- V-O33
    let m := decChip u16 { quiet 16 with resReady := true } ⟨.result, 0x012C, 1, false, false⟩
    m.dsWord = 0b010001#6 ∧
      exec .decRetire ⟨_, m⟩ =
        .next ⟨_, { m with
          dec := ⟨.accum, 0#16, 0, false, false⟩, chan := { m.chan with res := [⟨0x012C#16, false, false⟩] } }⟩ :=
  ⟨by decide, by rfl⟩

theorem test_decRetire_of_an_error_takes_no_token : -- V-O34
    let m := decChip u16 { quiet 16 with resReady := true, inValid := true, inEos := true }
      ⟨.result, 0, 3, true, false⟩
    m.dsWord = 0b011101#6 ∧
      exec .decRetire ⟨_, m⟩ =
        .next ⟨_, { m with
          dec := ⟨.accum, 0#16, 0, false, false⟩, chan := { m.chan with res := [⟨0#16, true, false⟩] } }⟩ :=
  ⟨by decide, by rfl⟩

theorem test_decReset_transfers_no_result : -- V-O35
    let m := decChip u16 { quiet 16 with rst := true, resReady := true } ⟨.result, 0x012C, 1, false, false⟩
    m.dsWord = 0b110001#6 ∧ exec .decReset ⟨_, m⟩ = .next ⟨_, { m with dec := ⟨.accum, 0#16, 0, false, false⟩ }⟩ :=
  ⟨by decide, by rfl⟩

theorem test_decReset_raises_no_error : -- V-O36
    let m := decChip u16 { quiet 16 with rst := true, inValid := true, inEos := true } ⟨.accum, 0x002C, 1, false, false⟩
    m.dsWord = 0b101100#6 ∧ exec .decReset ⟨_, m⟩ = .next ⟨_, { m with dec := ⟨.accum, 0#16, 0, false, false⟩ }⟩ :=
  ⟨by decide, by rfl⟩

/-! ### Tokens and bytes -/

/-- The decoder's registers after the instruction, in the order of section 4.2. -/
def decAfter (i : Instr) (d : Decoder 16) : Option (DecState × Nat × Nat × Bool × Bool) :=
  match exec i ⟨u16, decChip u16 (quiet 16) d⟩ with
  | .next t => some (t.chip.dec.state, t.chip.dec.acc.toNat, t.chip.dec.idx, t.chip.dec.err, t.chip.dec.ovf)
  | .fault _ => none
  | .refused _ => none

theorem test_tokCont : -- V-O23
    decAfter (.tokCont 0x03) ⟨.accum, 0x3FFF, 2, false, false⟩ = some (.accum, 0xFFFF, 3, false, false) := by decide
theorem test_tokTerm : -- V-O27
    decAfter (.tokTerm 0x7F) ⟨.accum, 0, 0, false, false⟩ = some (.result, 0x007F, 0, false, false) := by decide
theorem test_tokEos : -- V-O31
    decAfter .tokEos ⟨.accum, 0x3FFF, 3, false, true⟩ = some (.result, 0, 3, true, false) := by decide
theorem test_vbCont_at_the_saturated_position : -- V-O25
    decAfter (.vbCont 0x01) ⟨.accum, 0, 3, false, false⟩ = some (.accum, 0, 3, false, true) := by decide
theorem test_vbCont_of_a_zero_group : -- V-O26
    decAfter (.vbCont 0x00) ⟨.accum, 0, 3, false, false⟩ = some (.accum, 0, 3, false, false) := by decide
theorem test_vbTerm : -- V-O29
    decAfter (.vbTerm 0x07) ⟨.accum, 0x3FFF, 2, false, false⟩ = some (.result, 0xFFFF, 2, false, true) := by decide

/-! ### Words of the table run as the first step after reset -/

theorem test_a_placed_command_is_taken : carried (State.reset.withFetchWord 16 0x0A2C) = some ([0x0A2C], [], [], []) := by
  rfl
theorem test_a_placed_token_is_taken :
    carried (State.reset.withFetchWord 9 0b010101100) = some ([], [], [.byte 0xAC], []) := by rfl
theorem test_a_placed_eos_is_taken :
    carried (State.reset.withFetchWord 9 0b101010101) = some ([], [], [.eos], []) := by rfl
theorem test_a_placed_byte_is_taken :
    carried (State.reset.withFetchWord 8 0x80) = some ([], [], [.byte 0x80], []) := by rfl
theorem test_a_placed_emitl_delivers_a_byte :
    carried (State.reset.withFetchWord 5 0b01011) = some ([], [(0x00, true)], [], []) := by rfl
theorem test_a_placed_emit_delivers_a_byte :
    carried (State.reset.withFetchWord 5 0b01010) = some ([], [(0x80, false)], [], []) := by rfl
theorem test_a_placed_retire_delivers_a_result :
    carried (State.reset.withFetchWord 6 0b010001) = some ([], [], [], [(0, false, false)]) := by rfl
theorem test_reset_with_nothing_placed_runs_idle_and_wait :
    State.reset.chip.encSelect = .idle ∧ State.reset.chip.decSelect = .wait ∧
      carried State.reset = some ([], [], [], []) := ⟨by decide, by decide, by rfl⟩

/-! ### Vectors of the two functions -/

theorem test_encodeRef : -- V-E9, V-E13, V-E18
    encodeRef u8 0xFF = [(0xFF, false), (0x01, true)] ∧ encodeRef u16 300 = [(0xAC, false), (0x02, true)] ∧
      encodeRef u16 0xFFFF = [(0xFF, false), (0xFF, false), (0x03, true)] := by decide
theorem test_encodePairs_of_negative_values : -- V-N9, V-N10
    (encodePairs true 5 0xFED4#16).map (·.1) = [0x54, 0x7D, 0x7F, 0x7F, 0x7F] ∧
      (encodePairs true 5 0x8000#16).map (·.1) = [0x00, 0x00, 0x7E, 0x7F, 0x7F] := by decide
theorem test_decodeRef : -- V-D3, V-D13, V-D15, V-D17, V-D20
    decodeRef 16 [0xAC, 0x02] = .ok 300 false 2 ∧ decodeRef 16 [0x05, 0xAC, 0x02] = .ok 5 false 1 ∧
      decodeRef 8 [0xFF, 0x7F] = .ok 0xFF true 2 ∧ decodeRef 8 [0x80, 0x80, 0x01] = .ok 0 true 3 ∧
      decodeRef 8 [0x80] = .truncated := by decide

/-! ### Refusals -/

theorem test_a_width_of_7_is_refused :
    step ⟨{ W := 7, signed := false }, Chip.atReset _⟩ = .refused .unsupportedWidth := by rfl
theorem test_an_unselected_operation_is_refused : exec .encEmit State.reset = .refused .notSelected := by rfl

/-! ### Witnesses: for each statement with hypotheses, a state and operands that meet them all -/

theorem witness_GroupCountAndIndexWidth : 8 ≤ 8 ∧ ng 8 = 2 ∧ iw 8 = 2 := by decide

theorem witness_EncoderPrimitivesBitByBit : -- k = 6 of low7; k = 0 and k = 1 on the two sides of k + 7 < W
    8 ≤ 8 ∧ 6 < 7 ∧ (0 < 8 ∧ 0 + 7 < 8) ∧ (1 < 8 ∧ ¬1 + 7 < 8) ∧ 0 < (0x80#8).toNat ∧ 0 < (0x7F#8).toInt ∧
      (0x80#8).msb = true ∧ (0x7F#8).msb = false := by decide

theorem witness_NegativeShiftsReachMinusOne :
    8 ≤ 8 ∧ (0x80#8).msb = true ∧ (8 - 1 + 6) / 7 ≤ 1 ∧ ¬(8 - 1 + 6) / 7 ≤ 0 := by decide

theorem witness_DecoderPrimitivesBitByBit : -- positions 0 and 1 are below NG, 2 is NG; bit 7 is the last bit
    8 ≤ 8 ∧ 7 < 8 ∧ (7 * 1 ≤ 7 ∧ 7 ≤ 7 * 1 + 6) ∧ ¬7 * 1 ≤ 6 ∧ ng 8 ≤ 2 ∧ ¬ng 8 ≤ 1 := by decide

theorem witness_SaturatedPositionLosesNothing :
    8 ≤ 8 ∧ (1 : Fin (ng 8 + 1)).val < ng 8 ∧ ¬(2 : Fin (ng 8 + 1)).val < ng 8 := by decide

theorem witness_ComputedFlagsOfTheEncoder :
    8 ≤ 8 ∧ (nxt true 0xFF#8).msb = true ∧ (nxt true 0x7F#8).msb = false := by decide

theorem witness_OutputPortsFromTheRegisters : 8 ≤ 8 ∧ 6 < 7 := by decide

theorem witness_ResetCycleGivesTheIdleState :
    8 ≤ s8.W ∧ (encChip s8 { quiet 8 with rst := true, cmdValid := true } .emit 0xFF).inputs.rst = true := by decide

theorem witness_EncIdleChangesNothing :
    let m := encChip u8 (quiet 8) .idle 0xFF
    8 ≤ u8.W ∧ m.inputs.rst = false ∧ m.enc.state = .idle ∧ m.inputs.cmdValid = false := by decide

theorem witness_EncLoadTakesTheCommand :
    let m := encChip s8 { quiet 8 with cmdValid := true, cmdValue := 0x80 } .idle 0
    8 ≤ s8.W ∧ m.inputs.rst = false ∧ m.enc.state = .idle ∧ m.inputs.cmdValid = true := by decide

theorem witness_EncStallChangesNothing :
    let m := encChip u8 { quiet 8 with cmdValid := true } .emit 0xFF
    8 ≤ u8.W ∧ m.inputs.rst = false ∧ m.enc.state = .emit ∧ m.inputs.outReady = false := by decide

theorem witness_EncEmitDeliversOneByte : -- 128 is the least value with a second byte; -1 has a negative nxt
    let m := encChip u8 { quiet 8 with outReady := true } .emit 0x80
    let n := encChip s8 { quiet 8 with outReady := true } .emit 0xFF
    (8 ≤ u8.W ∧ m.inputs.rst = false ∧ m.enc.state = .emit ∧ m.inputs.outReady = true ∧
      fin u8.signed m.enc.rem = false ∧ u8.signed = false) ∧
    (8 ≤ s8.W ∧ n.inputs.rst = false ∧ n.enc.state = .emit ∧ n.inputs.outReady = true ∧
      fin s8.signed n.enc.rem = false ∧ s8.signed = true ∧ (shr7 s8.signed n.enc.rem).msb = true) := by decide

theorem witness_EncEmitlDeliversTheLastByte : -- 127 is the largest value of one byte
    let m := encChip u8 { quiet 8 with outReady := true, cmdValid := true } .emit 0x7F
    8 ≤ u8.W ∧ m.inputs.rst = false ∧ m.enc.state = .emit ∧ m.inputs.outReady = true ∧
      fin u8.signed m.enc.rem = true := by decide

theorem witness_DecWaitChangesNothing :
    let m := decChip u8 (quiet 8) ⟨.accum, 0x7F, 2, false, true⟩
    8 ≤ u8.W ∧ m.inputs.rst = false ∧ m.dec.state = .accum ∧ m.inputs.inValid = false := by decide

theorem witness_DecContPlacesTheGroup : -- positions 1 and 2, on the two sides of NG
    ∀ i ∈ [(1 : Fin (ng 8 + 1)), 2],
      let m := decChip u8 { quiet 8 with inValid := true, inData := 0xFF } ⟨.accum, 0x7F, i, false, false⟩
      8 ≤ u8.W ∧ m.inputs.rst = false ∧ m.dec.state = .accum ∧ m.inputs.inValid = true ∧ m.inputs.inEos = false ∧
        m.inputs.inData.getLsbD 7 = true := by decide

theorem witness_DecTermEndsTheDecode :
    let m := decChip u8 { quiet 8 with inValid := true, inData := 0x7F } ⟨.accum, 0x7F, 2, false, false⟩
    8 ≤ u8.W ∧ m.inputs.rst = false ∧ m.dec.state = .accum ∧ m.inputs.inValid = true ∧ m.inputs.inEos = false ∧
      m.inputs.inData.getLsbD 7 = false := by decide

theorem witness_DecEosRaisesTruncatedInput :
    let m := decChip u8 { quiet 8 with inValid := true, inEos := true } ⟨.accum, 0x7F, 2, false, true⟩
    8 ≤ u8.W ∧ m.inputs.rst = false ∧ m.dec.state = .accum ∧ m.inputs.inValid = true ∧ m.inputs.inEos = true := by
  decide

theorem witness_DecHoldChangesNothing :
    let m := decChip u8 { quiet 8 with inValid := true } ⟨.result, 0x7F, 2, false, true⟩
    8 ≤ u8.W ∧ m.inputs.rst = false ∧ m.dec.state = .result ∧ m.inputs.resReady = false := by decide

theorem witness_DecRetireDeliversTheResult :
    let m := decChip u8 { quiet 8 with resReady := true } ⟨.result, 0x7F, 2, false, true⟩
    8 ≤ u8.W ∧ m.inputs.rst = false ∧ m.dec.state = .result ∧ m.inputs.resReady = true := by decide

theorem witness_TokensAndBytesActOnTheDecoder :
    let m := decChip u8 (quiet 8) ⟨.accum, 0x7F, 1, false, false⟩
    8 ≤ u8.W ∧ m.inputs.rst = false ∧ m.dec.state = .accum := by decide

theorem witness_TokensWaitWhileAResultIsOffered :
    let m := decChip u8 { quiet 8 with rst := true } ⟨.accum, 0x7F, 1, false, false⟩
    let n := decChip u8 { quiet 8 with resReady := true } ⟨.result, 0x7F, 1, false, false⟩
    let hold := decChip u8 (quiet 8) ⟨.result, 0x7F, 1, false, false⟩
    8 ≤ u8.W ∧ Instr.tokEos ∈ [Instr.tokCont 0, .tokTerm 0, .tokEos, .vbCont 0, .vbTerm 0] ∧
      m.inputs.rst = true ∧ (n.dec.state = .result ∧ n.inputs.rst = false ∧ n.inputs.resReady = true) ∧
      hold.dec.state = .result ∧ hold.inputs.rst = false ∧ hold.inputs.resReady = false := by decide

theorem witness_EncodeCommandIsAcceptedWhenIdle :
    let m := encChip s8 (quiet 8) .idle 0
    8 ≤ s8.W ∧ 255 < 2 ^ s8.W ∧ m.inputs.rst = false ∧ m.enc.state = .idle := by decide

theorem witness_EncodeCommandWaitsWhileBusy :
    8 ≤ u8.W ∧ 255 < 2 ^ u8.W ∧ (encChip u8 (quiet 8) .emit 0x80).enc.state = .emit ∧
      (encChip u8 { quiet 8 with rst := true } .idle 0).inputs.rst = true ∧ 2 ^ u8.W ≤ 256 := by decide

theorem witness_EncoderInstructionsFrame : -- one of the operations, and the command
    let m := encChip u8 { quiet 8 with outReady := true } .emit 0x80
    (∃ t, exec .encEmit ⟨u8, m⟩ = .next t) ∧ ∃ t, exec (.encode 255) ⟨u8, m⟩ = .next t := ⟨⟨_, rfl⟩, ⟨_, rfl⟩⟩

theorem witness_DecoderInstructionsFrame : -- one of the operations, and one token of each form
    let m := decChip u8 { quiet 8 with inValid := true, inData := 0xFF } ⟨.accum, 0x7F, 1, false, false⟩
    (∃ t, exec .decCont ⟨u8, m⟩ = .next t) ∧ (∃ t, exec (.tokCont 0x7F) ⟨u8, m⟩ = .next t) ∧
      (∃ t, exec (.vbTerm 0) ⟨u8, m⟩ = .next t) ∧ ∃ t, exec .tokEos ⟨u8, m⟩ = .next t :=
  ⟨⟨_, rfl⟩, ⟨_, rfl⟩, ⟨_, rfl⟩, ⟨_, rfl⟩⟩

theorem witness_DecodeOfEncodeIsTheInstruction :
    (Instr.encode 255).wellFormed 8 = true ∧ (Instr.tokCont 0x7F).wellFormed 8 = true := by decide

theorem witness_EveryWordOfAFormatIsAnInstruction :
    8 ≤ 16 ∧ (65535 < 2 ^ (Format.cmd 16).bits ∧ ∀ V, Format.cmd 16 = .cmd V → V = 16) ∧ 31 < 2 ^ Format.es.bits ∧
      63 < 2 ^ Format.ds.bits ∧ 511 < 2 ^ Format.tok.bits ∧ 255 < 2 ^ Format.vb.bits :=
  ⟨by decide, ⟨by decide, fun _ h => by cases h; rfl⟩, by decide, by decide, by decide, by decide⟩

theorem witness_StepRunsTheSelectedOperations :
    let m : Chip u8 := { encChip u8 { quiet 8 with outReady := true, inValid := true, inData := 0x80 } .emit 0x80 with
      dec := ⟨.accum, 0x7F, 1, false, false⟩ }
    decode .es m.esWord.toNat = .ok .encEmit ∧ decode .ds m.dsWord.toNat = .ok .decCont ∧
      ∃ u t : Chip u8, exec .encEmit ⟨u8, m⟩ = .next ⟨u8, u⟩ ∧ exec .decCont ⟨u8, u⟩ = .next ⟨u8, t⟩ :=
  ⟨by rfl, by rfl, _, _, rfl, rfl⟩

theorem witness_PresentedInstructionIsTheAgentsCycle :
    let m := encChip u8 { quiet 8 with cmdValid := true, outReady := true, inValid := true, inData := 0xFF } .idle 0
    let n := encChip u8 { quiet 8 with inValid := true, inEos := true } .idle 0
    8 ≤ u8.W ∧ m.inputs.cmdValid = true ∧ m.inputs.outReady = true ∧ m.inputs.inValid = true ∧
      decode .tok (BitVec.ofBool m.inputs.inEos ++ m.inputs.inData).toNat = .ok (.tokCont 0x7F) ∧
      decode .tok (BitVec.ofBool n.inputs.inEos ++ n.inputs.inData).toNat = .ok .tokEos ∧
      m.inputs.inEos = false ∧ decode .vb m.inputs.inData.toNat = .ok (.vbCont 0x7F) :=
  ⟨by decide, by rfl, by rfl, by rfl, by rfl, by rfl, by rfl, by rfl⟩

theorem witness_PlacedWordIsTheNextOperation :
    8 ≤ 17 ∧ 31 < 2 ^ 5 ∧ 63 < 2 ^ 6 ∧ 511 < 2 ^ 9 ∧ 131071 < 2 ^ 17 ∧ 16 < 17 := by decide

theorem witness_EveryCycleHasANextState : 8 ≤ u8.W ∧ 8 ≤ s8.W := by decide

theorem witness_WidthsBelowEightAreRefused : ({ W := 7, signed := true } : Config).W < 8 := by decide

theorem witness_UnselectedOperationsAreRefused :
    8 ≤ u8.W ∧ EncOp.emit ≠ (encChip u8 (quiet 8) .idle 0).encSelect ∧
      DecOp.eos ≠ (encChip u8 (quiet 8) .idle 0).decSelect ∧ EncOp.idle = (encChip u8 (quiet 8) .idle 0).encSelect := by
  decide

theorem witness_AgentsCommuteWithinACycle :
    let m := encChip u8 { quiet 8 with outReady := true, inValid := true, inData := 0x80 } .emit 0x80
    Instr.encEmit = m.encSelect.instr ∧ Instr.decCont = m.decSelect.instr ∧
      ∃ a b : Chip u8, exec .encEmit ⟨u8, m⟩ = .next ⟨u8, a⟩ ∧ exec .decCont ⟨u8, m⟩ = .next ⟨u8, b⟩ :=
  ⟨by decide, by decide, _, _, rfl, rfl⟩

theorem witness_ChannelsMoveExactlyOnTransfers : -- a transfer on `out` and `tok`; one on `cmd` and `res`
    let m := encChip u8 { quiet 8 with outReady := true, inValid := true, inData := 0x80 } .emit 0x80
    let n : Chip u8 := { encChip u8 { quiet 8 with cmdValid := true, resReady := true } .idle 0 with
      dec := ⟨.result, 0x7F, 1, false, false⟩ }
    (∃ t : Chip u8, step ⟨u8, m⟩ = .next ⟨u8, t⟩) ∧ ∃ t : Chip u8, step ⟨u8, n⟩ = .next ⟨u8, t⟩ :=
  ⟨⟨_, rfl⟩, ⟨_, rfl⟩⟩

theorem witness_OffersAreStableUntilTaken :
    let m : Chip u8 := { encChip u8 (quiet 8) .emit 0x80 with dec := ⟨.result, 0x7F, 1, false, false⟩ }
    (∃ t : Chip u8, step ⟨u8, m⟩ = .next ⟨u8, t⟩) ∧ m.inputs.rst = false ∧ outValid m.enc = true ∧
      m.outTransfer = false ∧ resValid m.dec = true ∧ m.resTransfer = false :=
  ⟨⟨_, rfl⟩, by decide, by decide, by decide, by decide, by decide⟩

theorem witness_OnlyTheseOperationsMoveTheAgents : -- each clause's premise in one of two states
    let m : Chip u8 := { encChip u8 (quiet 8) .idle 0 with dec := ⟨.accum, 0x7F, 1, false, false⟩ }
    let n : Chip u8 := { encChip u8 (quiet 8) .emit 0x80 with dec := ⟨.result, 0, 1, true, false⟩ }
    ((∃ t : Chip u8, step ⟨u8, m⟩ = .next ⟨u8, t⟩) ∧ m.enc.state = .idle ∧ m.dec.state = .accum ∧ m.dec.err = false) ∧
    (∃ t : Chip u8, step ⟨u8, n⟩ = .next ⟨u8, t⟩) ∧ n.enc.state = .emit ∧ n.dec.state = .result ∧ n.dec.err = true :=
  ⟨⟨⟨_, rfl⟩, rfl, rfl, rfl⟩, ⟨_, rfl⟩, rfl, rfl, rfl⟩

theorem witness_EncoderDoesNotSeeTheDecoder : -- the two chips differ in every decoder register
    let m := encChip u8 { quiet 8 with outReady := true } .emit 0x80
    let m' : Chip u8 := { encChip u8 { quiet 8 with outReady := true, inValid := true, inData := 0xFF } .emit 0x80 with
      dec := ⟨.result, 0xFF, 2, true, true⟩ }
    (∃ t : Chip u8, step ⟨u8, m⟩ = .next ⟨u8, t⟩) ∧ (∃ t : Chip u8, step ⟨u8, m'⟩ = .next ⟨u8, t⟩) ∧ m'.enc = m.enc ∧
      m'.chan.cmd = m.chan.cmd ∧ m'.chan.out = m.chan.out ∧ m'.inputs.rst = m.inputs.rst ∧
      m'.inputs.cmdValid = m.inputs.cmdValid ∧ m'.inputs.cmdValue = m.inputs.cmdValue ∧
      m'.inputs.outReady = m.inputs.outReady :=
  ⟨⟨_, rfl⟩, ⟨_, rfl⟩, rfl, rfl, rfl, rfl, rfl, rfl, rfl⟩

theorem witness_DecoderDoesNotSeeTheEncoderOrSigned : -- the two chips differ in `SIGNED` and in the encoder
    let m := decChip u8 { quiet 8 with inValid := true, inData := 0xFF } ⟨.accum, 0x7F, 1, false, false⟩
    let m' : Chip s8 := { decChip s8 { quiet 8 with inValid := true, inData := 0xFF, outReady := true }
      ⟨.accum, 0x7F, 1, false, false⟩ with enc := ⟨.emit, 0xFF⟩ }
    (∃ t : Chip u8, step ⟨u8, m⟩ = .next ⟨u8, t⟩) ∧ (∃ t : Chip s8, step ⟨s8, m'⟩ = .next ⟨s8, t⟩) ∧ m'.dec = m.dec ∧
      m'.chan.tok = m.chan.tok ∧ m'.chan.res = m.chan.res ∧ m'.inputs.rst = m.inputs.rst ∧
      m'.inputs.inValid = m.inputs.inValid ∧ m'.inputs.inData = m.inputs.inData ∧
      m'.inputs.inEos = m.inputs.inEos ∧ m'.inputs.resReady = m.inputs.resReady :=
  ⟨⟨_, rfl⟩, ⟨_, rfl⟩, rfl, rfl, rfl, rfl, rfl, rfl, rfl, rfl⟩

theorem witness_UnqualifiedInputsAreNotRead : -- a command and a token that wait, and an end mark that is taken
    let m : Chip u8 := { encChip u8 { quiet 8 with cmdValid := true, inValid := true } .emit 0x80 with
      dec := ⟨.result, 0x7F, 1, false, false⟩ }
    let n := encChip u8 { quiet 8 with inValid := true, inEos := true } .idle 0
    8 ≤ u8.W ∧ m.cmdTransfer = false ∧ m.tokTransfer = false ∧ n.inputs.inEos = true ∧ n.tokTransfer = true := by decide

theorem witness_InvariantIsKeptByEveryStep : -- a state in mid-decode and mid-encode that meets I1 to I5
    let m : Chip u8 := { encChip u8 { quiet 8 with outReady := true, inValid := true, inData := 0xFF } .emit 0x80 with
      dec := ⟨.accum, 0x7F, 1, false, false⟩ }
    State.Inv ⟨u8, m⟩ ∧ ∃ t, step ⟨u8, m⟩ = .next t :=
  ⟨⟨fun h => (nomatch h), Nat.le_of_lt_succ (Fin.isLt _), fun _ => rfl, fun h => absurd h.2 (by decide), fun h => (nomatch h)⟩, ⟨_, rfl⟩⟩

/-- A chip with every register away from its reset value, in a reset cycle. -/
def dirtyReset : Chip u8 :=
  { encChip u8 { quiet 8 with rst := true } .emit 0xFF with dec := ⟨.result, 0xFF, 2, true, true⟩ }

theorem witness_EveryCycleAfterAResetMeetsTheInvariant : -- reset, then an end mark is taken; the encoder stays idle
    ∃ t : Chip u8, AfterReset t ∧ t.dec.err = true ∧ t.enc.state = .idle :=
  ⟨_, .cycle (lineEos 8) (.resetCycle (m := dirtyReset) (lineRst 8) rfl rfl) rfl, rfl, rfl⟩

theorem witness_EncoderIsIdleAfterAtMostNgBytes : -- two cycles that deliver the NG = 2 bytes of 255
    let m := encChip u8 (quiet 8) .emit 0xFF
    8 ≤ u8.W ∧ u8.signed = false ∧ ∃ t : Chip u8, FreeRun (fun _ => True) 2 m t ∧ t.chan.cmd = m.chan.cmd ∧
      t.chan.out.length = m.chan.out.length + ng 8 :=
  ⟨by decide, rfl, _, .cycle (lineTake 8) (.cycle (lineTake 8) (.start _) trivial rfl) trivial rfl, rfl, by decide⟩

theorem witness_DeliveredBytesAreTheEncodedCommands : -- the last byte of one value, then the command of another
    let m := encChip s8 (quiet 8) .emit 0x7F
    8 ≤ s8.W ∧ (m.enc.state = .emit → encodes s8 m.enc.rem) ∧ ∃ t : Chip s8, FreeRun noReset 2 m t ∧
      t.chan.cmd = m.chan.cmd ++ [0x7F#8] ∧ ∀ v ∈ [0x7F#8], encodes s8 v :=
  ⟨by decide, fun _ _ => by decide, _,
    .cycle (lineCmd 0x7F#8) (.cycle (lineTake 8) (.start _) rfl rfl) rfl rfl, rfl, fun v h _ => by
      rw [List.mem_singleton.mp h]; decide⟩

theorem witness_DeliveredResultsAreTheDecodedTokens : -- a continuation byte, then the end mark
    let m := decChip u8 (quiet 8) (Decoder.atReset 8)
    8 ≤ u8.W ∧ m.dec = Decoder.atReset 8 ∧ ∃ t : Chip u8, FreeRun noReset 2 m t ∧
      t.chan.tok = m.chan.tok ++ [.byte 0x80, .eos] :=
  ⟨by decide, rfl, _, .cycle (lineEos 8) (.cycle (lineByte 8 0x80) (.start _) rfl rfl) rfl rfl, rfl⟩

theorem witness_EncodeProgramDeliversEncodeRef : -- every value with SIGNED = 0, the non-negative ones with SIGNED = 1
    8 ≤ u8.W ∧ encodes u8 0xFF#8 ∧ encodes s8 0x7F#8 ∧ ¬encodes s8 0x80#8 ∧
      (encChip u8 (quiet 8) .idle 0).enc.state = .idle :=
  ⟨by decide, fun h => (nomatch h), fun _ => by decide, fun h => absurd (h rfl) (by decide), rfl⟩

theorem witness_DecodeProgramDeliversDecodeRef : -- one list that ends and one that does not
    8 ≤ u8.W ∧ (decChip u8 (quiet 8) (Decoder.atReset 8)).dec = Decoder.atReset 8 ∧
      decodeRef 8 [0x80, 0x01] = .ok 0x80 false 2 ∧ decodeRef 8 [] = .truncated :=
  ⟨by decide, rfl, by decide, by decide⟩

theorem witness_DecodeRefOfEncodeRefIsTheValue : 8 ≤ s8.W ∧ encodes s8 0x7F#8 ∧ 8 ≤ u8.W ∧ encodes u8 0xFF#8 :=
  ⟨by decide, fun _ => by decide, by decide, fun h => (nomatch h)⟩

theorem witness_EncodeRefIsMinimalAndOrdered : -- the first and the last byte of 255
    8 ≤ u8.W ∧ encodes u8 0xFF#8 ∧ (encodeRef u8 0xFF#8)[0]? = some (0xFF, false) ∧
      (encodeRef u8 0xFF#8)[1]? = some (0x01, true) ∧ 6 < 7 :=
  ⟨by decide, fun h => (nomatch h), by decide, by decide, by decide⟩

theorem witness_DecodeRefIsTheSpelledNumber : -- both cases of the result
    8 ≤ 8 ∧ decodeRef 8 [0x80, 0x01] = .ok 0x80 false 2 ∧ decodeRef 8 [0x80] = .truncated := by decide

theorem witness_NegativeEncodeNeverEnds : -- two bytes of -128: `0x00` and, from ceil((W-1)/7) = 1 on, `0x7F`
    let m := encChip s8 (quiet 8) .emit 0x80
    8 ≤ s8.W ∧ s8.signed = true ∧ m.enc.state = .emit ∧ m.enc.rem.msb = true ∧
      ∃ t : Chip s8, FreeRun noReset 2 m t ∧ t.chan.out = m.chan.out ++ [(0x00, false), (0x7F, false)] :=
  ⟨by decide, rfl, rfl, by decide, _, .cycle (lineTake 8) (.cycle (lineTake 8) (.start _) rfl rfl) rfl rfl, rfl⟩

theorem witness_EncodeThenDecodeReturnsTheValue :
    8 ≤ u8.W ∧ encodes u8 0xFF#8 ∧ (Chip.atReset u8).enc.state = .idle ∧ (Chip.atReset u8).dec = Decoder.atReset 8 :=
  ⟨by decide, fun h => (nomatch h), rfl, rfl⟩

end Sys2Proof.Tests
end

section
/-! ## Proofs, 00_scope.md: the arithmetic of the parameters and of the two agents (R5, R8, R9) -/

namespace Sys2Proof.Machine

/-! ### Group count and index width (R5) -/

/-- `NG` groups hold `W` bits. -/
theorem le_seven_mul_ng (W : Nat) : W ≤ 7 * ng W := by unfold ng; omega

/-- One group fewer does not hold `W` bits. -/
theorem seven_mul_pred_ng_lt {W : Nat} (pos : 0 < W) : 7 * (ng W - 1) < W := by unfold ng; omega

theorem ng_ne_zero {W : Nat} (pos : 0 < W) : ng W ≠ 0 := by unfold ng; omega

theorem ng_lt_two_pow_iw (W : Nat) : ng W < 2 ^ iw W := Nat.lt_log2_self

theorem two_pow_pred_iw_le_ng {W : Nat} (pos : 0 < W) : 2 ^ (iw W - 1) ≤ ng W :=
  Nat.log2_self_le (ng_ne_zero pos)

/-- Settles O1: the bounds of R5 from the division in `NG` and the logarithm in `IW`, the listed values by evaluation. -/
theorem groupCountAndIndexWidth : Obligations.GroupCountAndIndexWidth := by
  refine ⟨fun W h => ?_, by decide, by decide⟩
  have pos : 0 < W := by omega
  exact ⟨le_seven_mul_ng W, seven_mul_pred_ng_lt pos, ng_lt_two_pow_iw W, two_pow_pred_iw_le_ng pos⟩

/-! ### The encoder's primitives (R8) -/

theorem shr7_unsigned_getLsbD {W : Nat} (x : BitVec W) (k : Nat) :
    (shr7 false x).getLsbD k = if k + 7 < W then x.getLsbD (k + 7) else false := by
  have shifted : (shr7 false x).getLsbD k = x.getLsbD (k + 7) := by
    simp [shr7, Nat.add_comm]
  split
  · exact shifted
  · rw [shifted, BitVec.getLsbD_of_ge x _ (by omega)]

theorem shr7_signed_getLsbD {W : Nat} (x : BitVec W) {k : Nat} (h : k < W) :
    (shr7 true x).getLsbD k = if k + 7 < W then x.getLsbD (k + 7) else x.msb := by
  rw [shr7, if_pos rfl, BitVec.getLsbD_sshiftRight, Nat.add_comm]
  simp [h]

theorem gt0_unsigned_iff {W : Nat} (x : BitVec W) : gt0 false x = true ↔ 0 < x.toNat := by
  simp [gt0, BitVec.toNat_eq, Nat.pos_iff_ne_zero]

/-- Without a sign bit, not being 0 is being positive. -/
theorem gt0_signed_of_msb_false {W : Nat} {x : BitVec W} (h : x.msb = false) : gt0 true x = !eq0 x := by
  simp [gt0_signed, h]

theorem gt0_signed_of_msb_true {W : Nat} {x : BitVec W} (h : x.msb = true) : gt0 true x = false := by
  simp [gt0_signed, h]

theorem ne_zero_of_msb_true {W : Nat} {x : BitVec W} (h : x.msb = true) : x ≠ 0#W := by
  rintro rfl
  simp at h

/-- `gt0` is the comparison of the value type: a sign bit makes the value negative, and else the signed and the
unsigned value are the same. -/
theorem gt0_signed_iff {W : Nat} (x : BitVec W) : gt0 true x = true ↔ 0 < x.toInt := by
  cases h : x.msb
  · rw [gt0_signed_of_msb_false h, ← gt0_unsigned, gt0_unsigned_iff, BitVec.toInt_eq_toNat_of_msb h]
    omega
  · have negative := BitVec.toInt_neg_of_msb_true h
    simp only [gt0_signed_of_msb_true h, Bool.false_eq_true, false_iff]
    omega

theorem shr7_zero {W : Nat} (signed : Bool) : shr7 signed (0#W) = 0#W := by
  cases signed <;> simp [shr7]

/-- Shifting `k` times by 7 is one arithmetic shift by `7 * k`. -/
theorem shr7_signed_iterate {W : Nat} (x : BitVec W) (k : Nat) : (shr7 true)^[k] x = x.sshiftRight (7 * k) := by
  induction k with
  | zero => simp
  | succ k ih => rw [Function.iterate_succ_apply', ih, Nat.mul_succ, BitVec.sshiftRight_add]; rfl

theorem shr7_signed_iterate_msb {W : Nat} (x : BitVec W) (k : Nat) : ((shr7 true)^[k] x).msb = x.msb := by
  rw [shr7_signed_iterate, BitVec.msb_sshiftRight]

/-- An arithmetic shift of a negative value that moves the sign bit to position 0 or below it leaves only copies of
the sign bit. -/
theorem sshiftRight_eq_allOnes {W n : Nat} {x : BitVec W} (negative : x.msb = true) (enough : W - 1 ≤ n) :
    x.sshiftRight n = BitVec.allOnes W := by
  refine BitVec.eq_of_getLsbD_eq fun k hk => ?_
  rw [BitVec.getLsbD_sshiftRight, BitVec.getLsbD_allOnes]
  split
  · next inside =>
    have signPosition : n + k = W - 1 := by omega
    rw [signPosition, ← BitVec.msb_eq_getLsbD_last, negative]
    simp [hk]
  · simp [negative, hk]

theorem shr7_signed_iterate_eq_allOnes {W k : Nat} {x : BitVec W} (negative : x.msb = true)
    (enough : W - 1 ≤ 7 * k) : (shr7 true)^[k] x = BitVec.allOnes W := by
  rw [shr7_signed_iterate, sshiftRight_eq_allOnes negative enough]

theorem shr7_signed_iterate_ne_zero {W : Nat} {x : BitVec W} (negative : x.msb = true) (k : Nat) :
    (shr7 true)^[k] x ≠ 0#W :=
  ne_zero_of_msb_true (by rw [shr7_signed_iterate_msb, negative])

/-- -1 is a fixed point of the arithmetic shift. -/
theorem shr7_signed_allOnes (W : Nat) : shr7 true (BitVec.allOnes W) = BitVec.allOnes W := by
  refine BitVec.eq_of_getLsbD_eq fun k hk => ?_
  have pos : 0 < W := by omega
  rw [shr7_signed_getLsbD _ hk]
  simp [hk, BitVec.msb_allOnes pos]

/-- Settles O2: each primitive bit by bit, and repeated shifts as one shift that keeps the sign. -/
theorem encoderPrimitivesBitByBit : Obligations.EncoderPrimitivesBitByBit := by
  intro W x _
  exact ⟨low7_getLsbD x, fun k _ => shr7_unsigned_getLsbD x k, fun k hk => shr7_signed_getLsbD x hk,
    by simp [BitVec.toNat_eq], gt0_unsigned_iff x, gt0_signed_iff x, gt0_unsigned x, gt0_signed_of_msb_false,
    fun negative => ⟨gt0_signed_of_msb_true negative, (eq0_eq_false_iff x).2 (ne_zero_of_msb_true negative)⟩,
    shr7_zero, shr7_signed_allOnes W,
    fun negative =>
      ⟨⟨ng W, le_rfl, shr7_signed_iterate_eq_allOnes negative ((Nat.sub_le W 1).trans (le_seven_mul_ng W))⟩,
        shr7_signed_iterate_ne_zero negative⟩⟩

/-! ### The decoder's primitives (R9) -/

/-- The bits of the untruncated number: the group's, moved up by `7 * i`. -/
theorem full_testBit (g : Group) (i k : Nat) :
    (full g i).testBit k = (decide (7 * i ≤ k) && g.getLsbD (k - 7 * i)) := by
  rw [full, Nat.testBit_mul_two_pow, BitVec.testBit_toNat]

theorem place_getLsbD {W : Nat} (g : Group) (i : Nat) {k : Nat} (h : k < W) :
    (place W g i).getLsbD k = if 7 * i ≤ k ∧ k ≤ 7 * i + 6 then g.getLsbD (k - 7 * i) else false := by
  rw [place, BitVec.getLsbD_ofNat, full_testBit]
  split
  · next inGroup => simp [h, inGroup.1]
  · next outside =>
    by_cases below : 7 * i ≤ k
    · rw [BitVec.getLsbD_of_ge g _ (by omega)]
      simp
    · simp [below]

/-- A number reaches `2 ^ W` exactly when it has a 1 bit at `W` or above; in `full g i` that is a bit of the group. -/
theorem drop_iff (W : Nat) (g : Group) (i : Nat) :
    drop W g i = true ↔ ∃ j : Nat, j < 7 ∧ g.getLsbD j = true ∧ W ≤ 7 * i + j := by
  rw [drop, decide_eq_true_iff]
  constructor
  · intro reaches
    obtain ⟨k, above, bit⟩ := Nat.exists_ge_and_testBit_of_ge_two_pow reaches
    rw [full_testBit, Bool.and_eq_true, decide_eq_true_iff] at bit
    obtain ⟨start, bit⟩ := bit
    exact ⟨k - 7 * i, BitVec.lt_of_getLsbD bit, bit, by omega⟩
  · rintro ⟨j, -, bit, above⟩
    have bit' : (full g i).testBit (7 * i + j) = true := by simp [full_testBit, bit]
    exact (Nat.pow_le_pow_right (by decide) above).trans (Nat.ge_two_pow_of_testBit bit')

theorem place_eq_zero_of_ng_le {W i : Nat} (g : Group) (h : ng W ≤ i) : place W g i = 0#W := by
  have beyond := le_seven_mul_ng W
  refine BitVec.eq_of_getLsbD_eq fun k hk => ?_
  rw [place_getLsbD g i hk, if_neg (by omega), BitVec.getLsbD_zero]

theorem drop_iff_of_ng_le {W i : Nat} (g : Group) (h : ng W ≤ i) : drop W g i = true ↔ g ≠ 0#7 := by
  have beyond := le_seven_mul_ng W
  rw [drop_iff]
  constructor
  · rintro ⟨j, -, bit, -⟩ rfl
    simp at bit
  · intro nonzero
    obtain ⟨j, bit⟩ := Nat.exists_testBit_of_ne_zero (x := g.toNat) (by simpa [BitVec.toNat_eq] using nonzero)
    exact ⟨j, BitVec.lt_of_getLsbD bit, bit, by omega⟩

/-- Settles O4: the bits of `full g i`, cut at `W` for `place` and sought from `W` on for `drop`. -/
theorem decoderPrimitivesBitByBit : Obligations.DecoderPrimitivesBitByBit := fun W g i _ =>
  ⟨fun _ hk => place_getLsbD g i hk, drop_iff W g i,
    fun h => ⟨place_eq_zero_of_ng_le g h, drop_iff_of_ng_le g h⟩⟩

end Sys2Proof.Machine
end

section
/-! ## Proofs, 00_scope.md: what executing an agent's operation answers (R3, R58, R59, R61) -/

namespace Sys2Proof.Machine

variable {c : Config} {m : Chip c} {t : State}

/-- `encoderCycle` executes the operation the cycle selects. -/
theorem encoderCycle_eq_exec (s : State) : encoderCycle s = exec s.chip.encSelect.instr s := by
  unfold encoderCycle
  cases s.chip.encSelect <;> rfl

/-- `decoderCycle` executes the operation the cycle selects. -/
theorem decoderCycle_eq_exec (s : State) : decoderCycle s = exec s.chip.decSelect.instr s := by
  unfold decoderCycle
  cases s.chip.decSelect <;> rfl

/-- ENCODE of a `W`-bit value is the encoder's cycle with the command presented (R63). -/
theorem exec_encode_of_lt {v : Nat} (fits : v < 2 ^ c.W) :
    exec (.encode v) ⟨c, m⟩ = encoderCycle ⟨c, m.presentCommand (BitVec.ofNat c.W v)⟩ := by
  have notWide : ¬ 2 ^ c.W ≤ v := by omega
  simp [exec, execEncode, notWide]

/-! ### A width the hardware does not have (R3) -/

theorem exec_encOp_unsupported (op : EncOp) (unsupported : c.supported = false) :
    exec op.instr ⟨c, m⟩ = .refused .unsupportedWidth := by
  cases op <;> exact if_neg (by simp [unsupported])

theorem exec_decOp_unsupported (op : DecOp) (unsupported : c.supported = false) :
    exec op.instr ⟨c, m⟩ = .refused .unsupportedWidth := by
  cases op <;> exact if_neg (by simp [unsupported])

theorem encoderCycle_unsupported (unsupported : c.supported = false) :
    encoderCycle ⟨c, m⟩ = .refused .unsupportedWidth := by
  rw [encoderCycle_eq_exec, exec_encOp_unsupported _ unsupported]

theorem tokenCycle_unsupported (tok : Token) (unsupported : c.supported = false) :
    tokenCycle tok ⟨c, m⟩ = .refused .unsupportedWidth := by
  rw [tokenCycle, decoderCycle_eq_exec, exec_decOp_unsupported _ unsupported]

theorem exec_unsupported (i : Instr) (unsupported : c.supported = false) :
    exec i ⟨c, m⟩ = .refused .unsupportedWidth := by
  cases i with
  | encode v => simp [exec, execEncode, unsupported, encoderCycle_unsupported]
  | encReset => exact exec_encOp_unsupported .reset unsupported
  | encIdle => exact exec_encOp_unsupported .idle unsupported
  | encLoad => exact exec_encOp_unsupported .load unsupported
  | encStall => exact exec_encOp_unsupported .stall unsupported
  | encEmit => exact exec_encOp_unsupported .emit unsupported
  | encEmitl => exact exec_encOp_unsupported .emitl unsupported
  | decReset => exact exec_decOp_unsupported .reset unsupported
  | decWait => exact exec_decOp_unsupported .wait unsupported
  | decCont => exact exec_decOp_unsupported .cont unsupported
  | decTerm => exact exec_decOp_unsupported .term unsupported
  | decEos => exact exec_decOp_unsupported .eos unsupported
  | decHold => exact exec_decOp_unsupported .hold unsupported
  | decRetire => exact exec_decOp_unsupported .retire unsupported
  | tokCont g | tokTerm g | tokEos | vbCont g | vbTerm g => exact tokenCycle_unsupported _ unsupported

/-- Settles O37: every instruction goes through the width check of its agent's guard. -/
theorem widthsBelowEightAreRefused : Obligations.WidthsBelowEightAreRefused := by
  intro c m i narrow
  have unsupported : c.supported = false := by simpa [Config.supported] using narrow
  exact ⟨step_unsupported m unsupported, exec_unsupported i unsupported⟩

/-! ### The one next state an operation can answer -/

/-- An encoder operation answers a next state only in a cycle that selects it, and then that of `Chip.afterEnc`. -/
theorem exec_encOp_eq_next_iff {op : EncOp} :
    exec op.instr ⟨c, m⟩ = .next t ↔ c.supported = true ∧ m.encSelect = op ∧ t = ⟨c, m.afterEnc⟩ := by
  constructor
  · intro h
    have guard : c.supported = true ∧ m.encSelect = op := by
      cases op <;> obtain ⟨supported, selected, -⟩ := encOperation_eq_next_iff.1 h <;> exact ⟨supported, selected⟩
    obtain ⟨supported, rfl⟩ := guard
    rw [exec_encSelect m supported] at h
    exact ⟨supported, rfl, (Host.Outcome.next.inj h).symm⟩
  · rintro ⟨supported, rfl, rfl⟩
    exact exec_encSelect m supported

/-- A decoder operation answers a next state only in a cycle that selects it, and then that of `Chip.afterDec`. -/
theorem exec_decOp_eq_next_iff {op : DecOp} :
    exec op.instr ⟨c, m⟩ = .next t ↔ c.supported = true ∧ m.decSelect = op ∧ t = ⟨c, m.afterDec⟩ := by
  constructor
  · intro h
    have guard : c.supported = true ∧ m.decSelect = op := by
      cases op <;> obtain ⟨supported, selected, -⟩ := decOperation_eq_next_iff.1 h <;> exact ⟨supported, selected⟩
    obtain ⟨supported, rfl⟩ := guard
    rw [exec_decSelect m supported] at h
    exact ⟨supported, rfl, (Host.Outcome.next.inj h).symm⟩
  · rintro ⟨supported, rfl, rfl⟩
    exact exec_decSelect m supported

theorem encoderCycle_eq_next (h : encoderCycle ⟨c, m⟩ = .next t) : t = ⟨c, m.afterEnc⟩ := by
  rw [encoderCycle_eq_exec] at h
  exact (exec_encOp_eq_next_iff.1 h).2.2

theorem tokenCycle_eq_next {tok : Token} (h : tokenCycle tok ⟨c, m⟩ = .next t) :
    t = ⟨c, (m.presentToken tok).afterDec⟩ := by
  rw [tokenCycle, decoderCycle_eq_exec] at h
  exact (exec_decOp_eq_next_iff.1 h).2.2

theorem exec_encode_eq_next {v : Nat} (h : exec (.encode v) ⟨c, m⟩ = .next t) :
    t = ⟨c, (m.presentCommand (BitVec.ofNat c.W v)).afterEnc⟩ := by
  cases supported : c.supported
  · rw [exec_unsupported _ supported] at h
    nomatch h
  · by_cases wide : 2 ^ c.W ≤ v
    · simp [exec, execEncode, supported, wide] at h
    · rw [exec_encode_of_lt (by omega)] at h
      exact encoderCycle_eq_next h

/-- Two next states of the same parameters are the same when their chips are. -/
theorem next_chip_inj {a b : Chip c} (h : (⟨c, a⟩ : State) = ⟨c, b⟩) : a = b := by
  cases h
  rfl

end Sys2Proof.Machine
end

section
/-! ## Proofs, 00_scope.md: frames (R2, R10, R31) -/

namespace Sys2Proof.Machine

variable {c : Config} {m : Chip c} {t : State}

/-- An encoder cycle on ports `p`: what it leaves alone, and how its own two channel records grow. -/
theorem Chip.setInputs_afterEnc_frame (m : Chip c) (p : Inputs c.W) :
    let u := (m.setInputs p).afterEnc
    u.dec = m.dec ∧ u.env = m.env ∧ u.chan.tok = m.chan.tok ∧ u.chan.res = m.chan.res ∧
      (u.chan.cmd = m.chan.cmd ∨ u.chan.cmd = m.chan.cmd ++ [u.inputs.cmdValue]) ∧
      (u.chan.out = m.chan.out ∨ u.chan.out = m.chan.out ++ [(outData c.signed m.enc, outLast c.signed m.enc)]) ∧
      u.inputs = p := by
  obtain ⟨inputs, dec, env, tok, res⟩ := (m.setInputs p).afterEnc_frame
  refine ⟨dec, env, tok, res, ?_, ?_, inputs⟩
  · rw [inputs, Chip.afterEnc_cmd]
    split <;> simp
  · rw [Chip.afterEnc_out]
    split <;> simp

/-- A decoder cycle on ports `p`: what it leaves alone, and how its own two channel records grow. -/
theorem Chip.setInputs_afterDec_frame (m : Chip c) (p : Inputs c.W) :
    let u := (m.setInputs p).afterDec
    u.enc = m.enc ∧ u.env = m.env ∧ u.chan.cmd = m.chan.cmd ∧ u.chan.out = m.chan.out ∧
      (u.chan.tok = m.chan.tok ∨ u.chan.tok = m.chan.tok ++ [tokRead u.inputs]) ∧
      (u.chan.res = m.chan.res ∨ u.chan.res = m.chan.res ++ [resOffered m.dec]) ∧
      u.inputs = p := by
  obtain ⟨inputs, enc, env, cmd, out⟩ := (m.setInputs p).afterDec_frame
  refine ⟨enc, env, cmd, out, ?_, ?_, inputs⟩
  · rw [inputs, Chip.afterDec_tok]
    split <;> simp
  · rw [Chip.afterDec_res]
    split <;> simp

theorem exists_encOp_of_mem {i : Instr}
    (h : i ∈ [Instr.encReset, .encIdle, .encLoad, .encStall, .encEmit, .encEmitl]) : ∃ op : EncOp, i = op.instr := by
  simp only [List.mem_cons, List.not_mem_nil, or_false] at h
  obtain rfl | rfl | rfl | rfl | rfl | rfl := h
  exacts [⟨.reset, rfl⟩, ⟨.idle, rfl⟩, ⟨.load, rfl⟩, ⟨.stall, rfl⟩, ⟨.emit, rfl⟩, ⟨.emitl, rfl⟩]

theorem exists_decOp_of_mem {i : Instr}
    (h : i ∈ [Instr.decReset, .decWait, .decCont, .decTerm, .decEos, .decHold, .decRetire]) :
    ∃ op : DecOp, i = op.instr := by
  simp only [List.mem_cons, List.not_mem_nil, or_false] at h
  obtain rfl | rfl | rfl | rfl | rfl | rfl | rfl := h
  exacts [⟨.reset, rfl⟩, ⟨.wait, rfl⟩, ⟨.cont, rfl⟩, ⟨.term, rfl⟩, ⟨.eos, rfl⟩, ⟨.hold, rfl⟩, ⟨.retire, rfl⟩]

theorem encOp_instr_ne_encode (op : EncOp) (v : Nat) : op.instr ≠ .encode v := by
  cases op <;> exact Instr.noConfusion

/-- Settles O25: an encoder instruction is the encoder's cycle on the ports as they are, or, for ENCODE, on the ports
with the command presented. -/
theorem encoderInstructionsFrame : Obligations.EncoderInstructionsFrame := by
  intro c m i t encoders h
  obtain mem | ⟨v, rfl⟩ := encoders
  · obtain ⟨op, rfl⟩ := exists_encOp_of_mem mem
    obtain ⟨-, -, rfl⟩ := exec_encOp_eq_next_iff.1 h
    obtain ⟨dec, env, tok, res, cmd, out, inputs⟩ := m.setInputs_afterEnc_frame m.inputs
    exact ⟨m.afterEnc, rfl, dec, env, tok, res, cmd, out, fun v eq => absurd eq (encOp_instr_ne_encode op v),
      fun _ => inputs⟩
  · obtain rfl := exec_encode_eq_next h
    obtain ⟨dec, env, tok, res, cmd, out, inputs⟩ := m.setInputs_afterEnc_frame
      { m.inputs with cmdValid := true, cmdValue := BitVec.ofNat c.W v, outReady := true }
    refine ⟨_, rfl, dec, env, tok, res, cmd, out, fun w eq => ?_, fun other => absurd rfl (other v)⟩
    cases eq
    exact inputs

/-- The ports in the cycle a decoder instruction is executed in: as they are for an operation, with the token
presented for a token or a varint byte (R53, R62). -/
def decoderPorts {W : Nat} (p : Inputs W) : Instr → Inputs W
  | .tokCont g | .vbCont g => { p with inValid := true, inEos := false, inData := byteOf true g }
  | .tokTerm g | .vbTerm g => { p with inValid := true, inEos := false, inData := byteOf false g }
  | .tokEos => { p with inValid := true, inEos := true }
  | _ => p

theorem decoderPorts_decOp {W : Nat} (p : Inputs W) (op : DecOp) : decoderPorts p op.instr = p := by
  cases op <;> rfl

/-- A token or varint byte is the decoder's cycle with that token presented (R53). -/
theorem exec_presented_eq_next {i : Instr} (tok : Token) (meaning : ∀ s, exec i s = tokenCycle tok s)
    (ports : m.presentToken tok = m.setInputs (decoderPorts m.inputs i)) (h : exec i ⟨c, m⟩ = .next t) :
    t = ⟨c, (m.setInputs (decoderPorts m.inputs i)).afterDec⟩ := by
  rw [meaning] at h
  rw [← ports]
  exact tokenCycle_eq_next h

/-- Every decoder instruction that answers a next state is the decoder's cycle on `decoderPorts`. -/
theorem exec_decoderInstr_eq_next {i : Instr} {g : Group}
    (decoders : i ∈ [Instr.decReset, .decWait, .decCont, .decTerm, .decEos, .decHold, .decRetire] ∨
      i ∈ [Instr.tokCont g, .tokTerm g, .tokEos, .vbCont g, .vbTerm g])
    (h : exec i ⟨c, m⟩ = .next t) : t = ⟨c, (m.setInputs (decoderPorts m.inputs i)).afterDec⟩ := by
  obtain mem | mem := decoders
  · obtain ⟨op, rfl⟩ := exists_decOp_of_mem mem
    rw [decoderPorts_decOp]
    exact (exec_decOp_eq_next_iff.1 h).2.2
  · simp only [List.mem_cons, List.not_mem_nil, or_false] at mem
    obtain rfl | rfl | rfl | rfl | rfl := mem
    · exact exec_presented_eq_next (.byte (byteOf true g)) (fun _ => rfl) rfl h
    · exact exec_presented_eq_next (.byte (byteOf false g)) (fun _ => rfl) rfl h
    · exact exec_presented_eq_next .eos (fun _ => rfl) rfl h
    · exact exec_presented_eq_next (.byte (byteOf true g)) (fun _ => rfl) rfl h
    · exact exec_presented_eq_next (.byte (byteOf false g)) (fun _ => rfl) rfl h

/-- `decoderPorts` in the form the obligation writes it. -/
theorem decoderPorts_eq_ite {W : Nat} (p : Inputs W) {i : Instr} {g : Group}
    (decoders : i ∈ [Instr.decReset, .decWait, .decCont, .decTerm, .decEos, .decHold, .decRetire] ∨
      i ∈ [Instr.tokCont g, .tokTerm g, .tokEos, .vbCont g, .vbTerm g]) :
    decoderPorts p i =
      if i ∈ [Instr.tokCont g, .vbCont g] then { p with inValid := true, inEos := false, inData := 1#1 ++ g }
      else if i ∈ [Instr.tokTerm g, .vbTerm g] then { p with inValid := true, inEos := false, inData := 0#1 ++ g }
      else if i = .tokEos then { p with inValid := true, inEos := true }
      else p := by
  obtain mem | mem := decoders
  · obtain ⟨op, rfl⟩ := exists_decOp_of_mem mem
    cases op <;> simp [DecOp.instr, decoderPorts]
  · simp only [List.mem_cons, List.not_mem_nil, or_false] at mem
    obtain rfl | rfl | rfl | rfl | rfl := mem <;> simp [decoderPorts, byteOf]

/-- Settles O26: a decoder instruction is the decoder's cycle on the ports it is presented on. -/
theorem decoderInstructionsFrame : Obligations.DecoderInstructionsFrame := by
  intro c m i t g decoders h
  obtain rfl := exec_decoderInstr_eq_next decoders h
  rw [← decoderPorts_eq_ite m.inputs decoders]
  exact ⟨_, rfl, m.setInputs_afterDec_frame (decoderPorts m.inputs i)⟩

end Sys2Proof.Machine
end

section
/-! ## Proofs, 00_scope.md: the two operations of a cycle (R6), and what neither agent sees (R2) -/

namespace Sys2Proof.Machine

variable {c : Config}

theorem decode_es_toNat (w : BitVec 5) : decode .es w.toNat = .ok (decodeEs w).instr := by
  have fits : w.toNat < 32 := w.isLt
  simp [decode, Format.bits, fits]

theorem decode_ds_toNat (w : BitVec 6) : decode .ds w.toNat = .ok (decodeDs w).instr := by
  have fits : w.toNat < 64 := w.isLt
  simp [decode, Format.bits, fits]

/-- The encoder's operation does not change which operation the decoder's select word selects. -/
theorem Chip.afterEnc_decSelect (m : Chip c) : m.afterEnc.decSelect = m.decSelect := by
  obtain ⟨inputs, dec, -, -, -⟩ := m.afterEnc_frame
  rw [Chip.decSelect_eq, Chip.decSelect_eq, inputs, dec]

/-- The decoder's operation does not change which operation the encoder's select word selects. -/
theorem Chip.afterDec_encSelect (m : Chip c) : m.afterDec.encSelect = m.encSelect := by
  obtain ⟨inputs, enc, -, -, -⟩ := m.afterDec_frame
  rw [Chip.encSelect_eq, Chip.encSelect_eq, inputs, enc]

/-- Settles O33: the two words decode to the two operations `step` selects, and the encoder's leaves the decoder's
selected. -/
theorem stepRunsTheSelectedOperations : Obligations.StepRunsTheSelectedOperations := by
  intro c m u t i j es ds execI execJ
  obtain rfl : m.encSelect.instr = i := Except.ok.inj ((decode_es_toNat m.esWord).symm.trans es)
  obtain rfl : m.decSelect.instr = j := Except.ok.inj ((decode_ds_toNat m.dsWord).symm.trans ds)
  obtain ⟨supported, -, nextU⟩ := exec_encOp_eq_next_iff.1 execI
  obtain rfl := next_chip_inj nextU
  obtain ⟨-, -, nextT⟩ := exec_decOp_eq_next_iff.1 execJ
  obtain rfl := next_chip_inj nextT
  exact step_eq m supported

/-! ### What an agent's operation depends on -/

/-- The encoder's registers and channel records after its operation are functions of its own registers, records and
ports (R2). -/
theorem Chip.afterEnc_congr {m m' : Chip c} (enc : m'.enc = m.enc) (cmd : m'.chan.cmd = m.chan.cmd)
    (out : m'.chan.out = m.chan.out) (rst : m'.inputs.rst = m.inputs.rst)
    (cmdValid : m'.inputs.cmdValid = m.inputs.cmdValid) (cmdValue : m'.inputs.cmdValue = m.inputs.cmdValue)
    (outReady : m'.inputs.outReady = m.inputs.outReady) :
    m'.afterEnc.enc = m.afterEnc.enc ∧ m'.afterEnc.chan.cmd = m.afterEnc.chan.cmd ∧
      m'.afterEnc.chan.out = m.afterEnc.chan.out := by
  have cmdTransfer : m'.cmdTransfer = m.cmdTransfer := by rw [Chip.cmdTransfer, cmdValid, enc, rst, Chip.cmdTransfer]
  have outTransfer : m'.outTransfer = m.outTransfer := by rw [Chip.outTransfer, enc, outReady, rst, Chip.outTransfer]
  refine ⟨?_, ?_, ?_⟩
  · rw [Chip.afterEnc_enc, Chip.afterEnc_enc, enc, rst, cmdValid, cmdValue, outReady]
  · rw [Chip.afterEnc_cmd, Chip.afterEnc_cmd, cmd, cmdTransfer, cmdValue]
  · rw [Chip.afterEnc_out, Chip.afterEnc_out, out, outTransfer, enc]

/-- The decoder's registers and channel records after its operation are functions of its own registers, records and
ports, at any `SIGNED` (R2, R13). -/
theorem Chip.afterDec_congr {W : Nat} {a b : Bool} {m : Chip { W := W, signed := a }}
    {m' : Chip { W := W, signed := b }} (dec : m'.dec = m.dec) (tok : m'.chan.tok = m.chan.tok)
    (res : m'.chan.res = m.chan.res) (rst : m'.inputs.rst = m.inputs.rst)
    (inValid : m'.inputs.inValid = m.inputs.inValid) (inData : m'.inputs.inData = m.inputs.inData)
    (inEos : m'.inputs.inEos = m.inputs.inEos) (resReady : m'.inputs.resReady = m.inputs.resReady) :
    m'.afterDec.dec = m.afterDec.dec ∧ m'.afterDec.chan.tok = m.afterDec.chan.tok ∧
      m'.afterDec.chan.res = m.afterDec.chan.res := by
  have tokTransfer : m'.tokTransfer = m.tokTransfer := by rw [Chip.tokTransfer, inValid, dec, rst, Chip.tokTransfer]
  have resTransfer : m'.resTransfer = m.resTransfer := by rw [Chip.resTransfer, dec, resReady, rst, Chip.resTransfer]
  have read : tokRead m'.inputs = tokRead m.inputs := by rw [tokRead, inEos, inData, tokRead]
  refine ⟨?_, ?_, ?_⟩
  · rw [Chip.afterDec_dec, Chip.afterDec_dec, dec, rst, inValid, inEos, inData, resReady]
  · rw [Chip.afterDec_tok, Chip.afterDec_tok, tok, tokTransfer, read]
  · rw [Chip.afterDec_res, Chip.afterDec_res, res, resTransfer, dec]

/-- The encoder's operation gives the encoder the same after the decoder's operation as before it. -/
theorem Chip.afterDec_afterEnc_encoder (m : Chip c) :
    m.afterDec.afterEnc.enc = m.afterEnc.enc ∧ m.afterDec.afterEnc.chan.cmd = m.afterEnc.chan.cmd ∧
      m.afterDec.afterEnc.chan.out = m.afterEnc.chan.out := by
  obtain ⟨inputs, enc, -, cmd, out⟩ := m.afterDec_frame
  exact Chip.afterEnc_congr enc cmd out (by rw [inputs]) (by rw [inputs]) (by rw [inputs]) (by rw [inputs])

/-- The decoder's operation gives the decoder the same after the encoder's operation as before it. -/
theorem Chip.afterEnc_afterDec_decoder (m : Chip c) :
    m.afterEnc.afterDec.dec = m.afterDec.dec ∧ m.afterEnc.afterDec.chan.tok = m.afterDec.chan.tok ∧
      m.afterEnc.afterDec.chan.res = m.afterDec.chan.res := by
  obtain ⟨inputs, dec, -, tok, res⟩ := m.afterEnc_frame
  exact Chip.afterDec_congr dec tok res (by rw [inputs]) (by rw [inputs]) (by rw [inputs]) (by rw [inputs])
    (by rw [inputs])

/-- A chip is its registers, ports, script and four channel records. -/
theorem Chip.eq_of_parts {a b : Chip c} (inputs : a.inputs = b.inputs) (enc : a.enc = b.enc) (dec : a.dec = b.dec)
    (env : a.env = b.env) (cmd : a.chan.cmd = b.chan.cmd) (out : a.chan.out = b.chan.out)
    (tok : a.chan.tok = b.chan.tok) (res : a.chan.res = b.chan.res) : a = b := by
  obtain ⟨_, _, _, ⟨_, _, _, _⟩, _⟩ := a
  obtain ⟨_, _, _, ⟨_, _, _, _⟩, _⟩ := b
  simp only at inputs enc dec env cmd out tok res
  subst_vars
  rfl

/-- R6: either order gives the same chip. -/
theorem Chip.afterEnc_afterDec_comm (m : Chip c) : m.afterEnc.afterDec = m.afterDec.afterEnc := by
  obtain ⟨inputsE, -, envE, -, -⟩ := m.afterEnc_frame
  obtain ⟨inputsD, -, envD, -, -⟩ := m.afterDec_frame
  obtain ⟨inputsED, encED, envED, cmdED, outED⟩ := m.afterEnc.afterDec_frame
  obtain ⟨inputsDE, decDE, envDE, tokDE, resDE⟩ := m.afterDec.afterEnc_frame
  obtain ⟨encSame, cmdSame, outSame⟩ := m.afterDec_afterEnc_encoder
  obtain ⟨decSame, tokSame, resSame⟩ := m.afterEnc_afterDec_decoder
  apply Chip.eq_of_parts
  · rw [inputsED, inputsE, inputsDE, inputsD]
  · rw [encED, encSame]
  · rw [decSame, decDE]
  · rw [envED, envE, envDE, envD]
  · rw [cmdED, cmdSame]
  · rw [outED, outSame]
  · rw [tokSame, tokDE]
  · rw [resSame, resDE]

/-- Settles O39: neither operation changes what the other's agent selects, reads or writes. -/
theorem agentsCommuteWithinACycle : Obligations.AgentsCommuteWithinACycle := by
  rintro c m a b i j rfl rfl execI execJ
  obtain ⟨supported, -, nextA⟩ := exec_encOp_eq_next_iff.1 execI
  obtain ⟨-, -, nextB⟩ := exec_decOp_eq_next_iff.1 execJ
  obtain rfl := next_chip_inj nextA
  obtain rfl := next_chip_inj nextB
  refine ⟨m.afterEnc.afterDec, ?_, ?_⟩
  · exact exec_decOp_eq_next_iff.2 ⟨supported, m.afterEnc_decSelect, rfl⟩
  · exact exec_encOp_eq_next_iff.2 ⟨supported, m.afterDec_encSelect, by rw [m.afterEnc_afterDec_comm]⟩

/-- The encoder's part of the chip after a step is that after its own operation. -/
theorem step_next_encoder {m t : Chip c} (h : step ⟨c, m⟩ = .next ⟨c, t⟩) :
    t.enc = m.afterEnc.enc ∧ t.chan.cmd = m.afterEnc.chan.cmd ∧ t.chan.out = m.afterEnc.chan.out := by
  obtain ⟨-, next⟩ := step_next_iff.1 h
  obtain rfl := next_chip_inj next
  obtain ⟨-, enc, -, cmd, out⟩ := m.afterEnc.afterDec_frame
  exact ⟨enc, cmd, out⟩

/-- The decoder's part of the chip after a step is that after its own operation. -/
theorem step_next_decoder {m t : Chip c} (h : step ⟨c, m⟩ = .next ⟨c, t⟩) :
    t.dec = m.afterDec.dec ∧ t.chan.tok = m.afterDec.chan.tok ∧ t.chan.res = m.afterDec.chan.res := by
  obtain ⟨-, next⟩ := step_next_iff.1 h
  obtain rfl := next_chip_inj next
  exact m.afterEnc_afterDec_decoder

/-- Settles O43: a step's encoder part is the encoder's operation, which reads the encoder's part only. -/
theorem encoderDoesNotSeeTheDecoder : Obligations.EncoderDoesNotSeeTheDecoder := by
  intro c m m' t t' h h' enc cmd out rst cmdValid cmdValue outReady
  obtain ⟨tEnc, tCmd, tOut⟩ := step_next_encoder h
  obtain ⟨tEnc', tCmd', tOut'⟩ := step_next_encoder h'
  rw [tEnc, tCmd, tOut, tEnc', tCmd', tOut']
  exact Chip.afterEnc_congr enc cmd out rst cmdValid cmdValue outReady

/-- Settles O44: a step's decoder part is the decoder's operation, which reads the decoder's part only. -/
theorem decoderDoesNotSeeTheEncoderOrSigned : Obligations.DecoderDoesNotSeeTheEncoderOrSigned := by
  intro W a b m t m' t' h h' dec tok res rst inValid inData inEos resReady
  obtain ⟨tDec, tTok, tRes⟩ := step_next_decoder h
  obtain ⟨tDec', tTok', tRes'⟩ := step_next_decoder h'
  rw [tDec, tTok, tRes, tDec', tTok', tRes']
  exact Chip.afterDec_congr dec tok res rst inValid inData inEos resReady

end Sys2Proof.Machine
end

section
/-! ## Proofs, 10_state.md: the invariants of the registers (R22, R24) -/

namespace Sys2Proof.Machine

variable {c : Config} {m : Chip c}

/-- I3 to I5 of R24, as a property of the decoder's registers alone. -/
structure Decoder.Inv {W : Nat} (d : Decoder W) : Prop where
  /-- I3. -/
  accumHasNoError : d.state = .accum → d.err = false
  /-- I4. -/
  freshIsClear : d.state = .accum ∧ d.idx.val = 0 → d.acc = 0#W ∧ d.ovf = false
  /-- I5. -/
  errorIsBare : d.err = true → d.state = .result ∧ d.acc = 0#W ∧ d.ovf = false

/-- R24 speaks of each agent's registers on their own; I2 holds by the type of `dec_idx`. -/
theorem Chip.inv_iff : m.Inv ↔ m.idleHoldsZero ∧ m.dec.Inv :=
  ⟨fun ⟨idle, _, accum, fresh, error⟩ => ⟨idle, accum, fresh, error⟩,
    fun ⟨idle, accum, fresh, error⟩ => ⟨idle, m.dec.idx.is_le, accum, fresh, error⟩⟩

theorem Decoder.atReset_inv (W : Nat) : (Decoder.atReset W).Inv :=
  ⟨fun _ => rfl, fun _ => ⟨rfl, rfl⟩, nofun⟩

theorem raiseTruncatedInput_inv {W : Nat} (d : Decoder W) : (raiseTruncatedInput d).Inv :=
  ⟨nofun, nofun, fun _ => ⟨rfl, rfl, rfl⟩⟩

/-- A group placed with no error pending, the decode going on: the position is no longer 0 (R96). -/
theorem Decoder.continued_inv {W : Nat} {d : Decoder W} (noError : d.err = false) (pos : 0 < W) (acc : BitVec W)
    (ovf : Bool) : Decoder.Inv { d with acc := acc, ovf := ovf, idx := satIncr d.idx } where
  accumHasNoError _ := noError
  freshIsClear := by
    rintro ⟨-, idxZero⟩
    have groups := ng_ne_zero pos
    rw [satIncr_val] at idxZero
    omega
  errorIsBare error := absurd error (by simp [noError])

/-- A group placed with no error pending, the decode ended: the result is a value (R97). -/
theorem Decoder.ended_inv {W : Nat} {d : Decoder W} (noError : d.err = false) (acc : BitVec W) (ovf : Bool) :
    Decoder.Inv { d with acc := acc, ovf := ovf, state := .result } where
  accumHasNoError := nofun
  freshIsClear := nofun
  errorIsBare error := absurd error (by simp [noError])

/-- The decoder's operation keeps I3 to I5. -/
theorem Chip.afterDec_dec_inv (pos : 0 < c.W) (inv : m.dec.Inv) : m.afterDec.dec.Inv := by
  rw [Chip.afterDec_dec]
  split
  · exact Decoder.atReset_inv c.W
  split
  · next accum =>
    have noError := inv.accumHasNoError accum
    split
    · split
      · exact raiseTruncatedInput_inv m.dec
      split
      · exact Decoder.continued_inv noError pos _ _
      · exact Decoder.ended_inv noError _ _
    · exact inv
  · split
    · exact Decoder.atReset_inv c.W
    · exact inv

/-- The encoder's operation keeps I1: it leads into `IDLE` with nothing left only (R75, R140). -/
theorem Chip.afterEnc_idleHoldsZero (inv : m.idleHoldsZero) : m.afterEnc.idleHoldsZero := by
  rw [Chip.idleHoldsZero, Chip.afterEnc_enc]
  split
  · exact fun _ => rfl
  split
  · split
    · exact nofun
    · exact inv
  · split
    · split
      · exact fun _ => rfl
      · exact nofun
    · exact inv

theorem step_keeps_inv {t : Chip c} (h : step ⟨c, m⟩ = .next ⟨c, t⟩) (inv : m.Inv) : t.Inv := by
  have pos : 0 < c.W := by
    have wide := (Config.supported_iff c).1 (step_next_iff.1 h).1
    omega
  obtain ⟨idle, dec⟩ := Chip.inv_iff.1 inv
  obtain ⟨tEnc, -, -⟩ := step_next_encoder h
  obtain ⟨tDec, -, -⟩ := step_next_decoder h
  refine Chip.inv_iff.2 ⟨?_, ?_⟩
  · rw [Chip.idleHoldsZero, tEnc]
    exact Chip.afterEnc_idleHoldsZero idle
  · rw [tDec]
    exact Chip.afterDec_dec_inv pos dec

/-- Settles O47: a step keeps the parameters, and each agent's operation keeps that agent's invariants. -/
theorem invariantIsKeptByEveryStep : Obligations.InvariantIsKeptByEveryStep := by
  rintro ⟨c, m⟩ t inv h
  obtain ⟨-, rfl⟩ := step_next_iff.1 h
  exact step_keeps_inv h inv

/-! ### In every cycle after a reset -/

theorem Chip.inv_of_idleState (enc : m.enc = Encoder.atReset c.W) (dec : m.dec = Decoder.atReset c.W) : m.Inv := by
  refine Chip.inv_iff.2 ⟨?_, ?_⟩
  · rw [Chip.idleHoldsZero, enc]
    exact fun _ => rfl
  · rw [dec]
    exact Decoder.atReset_inv c.W

/-- A step with `rst = 1` leads into the idle state from any registers (R140). -/
theorem step_of_rst {t : Chip c} (h : step ⟨c, m⟩ = .next ⟨c, t⟩) (asserted : m.inputs.rst = true) :
    t.enc = Encoder.atReset c.W ∧ t.dec = Decoder.atReset c.W := by
  obtain ⟨tEnc, -, -⟩ := step_next_encoder h
  obtain ⟨tDec, -, -⟩ := step_next_decoder h
  rw [tEnc, tDec, Chip.afterEnc_enc, Chip.afterDec_dec, asserted]
  exact ⟨rfl, rfl⟩

theorem AfterReset.inv (h : AfterReset m) : m.Inv := by
  induction h with
  | resetCycle p asserted now =>
    obtain ⟨enc, dec⟩ := step_of_rst now asserted
    exact Chip.inv_of_idleState enc dec
  | cycle p _ now ih => exact step_keeps_inv now ih

/-- R33: the ungated outputs of an encoder with nothing left. -/
theorem outputs_of_rem_zero {W : Nat} (signed : Bool) {e : Encoder W} (nothingLeft : e.rem = 0#W) :
    outData signed e = 0x00#8 ∧ outLast signed e = true := by
  have last : fin signed e.rem = true := by rw [nothingLeft, fin, nxt, shr7_zero, eq0_eq_true_iff]
  have group : low7 e.rem = 0#7 := by simp [low7, nothingLeft]
  exact ⟨by rw [outData, cont_of_fin last, group]; rfl, last⟩

/-- Settles O46: the state after reset is the idle state. -/
theorem invariantHoldsAtReset : Obligations.InvariantHoldsAtReset := Chip.inv_of_idleState rfl rfl

/-- Settles O48: the reset cycle gives the idle state, every later cycle keeps I1 to I5, and R55 and R33 read I5 and I1 off
the ports. -/
theorem everyCycleAfterAResetMeetsTheInvariant : Obligations.EveryCycleAfterAResetMeetsTheInvariant := by
  intro c m after
  have inv := after.inv
  obtain ⟨idle, dec⟩ := Chip.inv_iff.1 inv
  refine ⟨inv, fun error => ?_, fun isIdle => outputs_of_rem_zero c.signed (idle isIdle)⟩
  obtain ⟨-, acc, ovf⟩ := dec.errorIsBare error
  rw [resOffered, acc, error, ovf]

/-- Settles O8: every register by evaluation. -/
theorem resetStateIsTheIdleState : Obligations.ResetStateIsTheIdleState := ⟨rfl, by decide, rfl, rfl⟩

end Sys2Proof.Machine
end

section
/-! ## Proofs, 10_state.md: at most `NG` bytes a command (R24 I6, R79, R149) -/

namespace Sys2Proof.Machine

variable {c : Config} {m t : Chip c}

/-- The encoder is done after at most `k` more bytes: while it is emitting there is a byte to come, and what is left
fits in `k` groups. -/
def Encoder.DoneWithin {W : Nat} (k : Nat) (e : Encoder W) : Prop :=
  e.state = .emit → 0 < k ∧ e.rem.toNat < 2 ^ (7 * k)

theorem Encoder.doneWithin_of_idle {W k : Nat} {e : Encoder W} (idle : e.state = .idle) : e.DoneWithin k :=
  fun emit => nomatch idle.symm.trans emit

/-- R79: any value fits in `NG` groups. -/
theorem Encoder.doneWithin_ng {W : Nat} (pos : 0 < W) (e : Encoder W) : e.DoneWithin (ng W) := fun _ =>
  ⟨Nat.pos_of_ne_zero (ng_ne_zero pos), e.rem.isLt.trans_le (Nat.pow_le_pow_right (by decide) (le_seven_mul_ng W))⟩

/-- A shift by 7 takes one group off what is left. -/
theorem shr7_unsigned_lt {W k : Nat} {x : BitVec W} (h : x.toNat < 2 ^ (7 * (k + 1))) :
    (shr7 false x).toNat < 2 ^ (7 * k) := by
  rw [shr7_unsigned_toNat]
  exact Nat.div_lt_of_lt_mul (by rwa [← Nat.pow_add, Nat.add_comm, ← Nat.mul_succ])

/-- While a further byte is to come, taking one leaves one byte fewer (R74). -/
theorem Encoder.doneWithin_shr7 {W k : Nat} {x : BitVec W} (fits : x.toNat < 2 ^ (7 * (k + 1)))
    (notLast : fin false x = false) : Encoder.DoneWithin k { state := .emit, rem := shr7 false x } := by
  intro _
  have less := shr7_unsigned_lt fits
  have nonzero : shr7 false x ≠ 0#W := by simpa [fin, nxt] using notLast
  refine ⟨Nat.pos_of_ne_zero ?_, less⟩
  rintro rfl
  exact nonzero (BitVec.eq_of_toNat_eq (by simpa using less))

/-- A cycle that takes no command uses up one of the bytes to come exactly when it transfers one. -/
theorem Chip.afterEnc_doneWithin {k : Nat} (unsigned : c.signed = false) (done : m.enc.DoneWithin k)
    (noCommand : m.cmdTransfer = false) :
    ∃ l, m.afterEnc.chan.out.length + l = m.chan.out.length + k ∧ m.afterEnc.enc.DoneWithin l := by
  rw [Chip.afterEnc_out, Chip.afterEnc_enc, unsigned]
  cases rst : m.inputs.rst
  case true => exact ⟨k, by simp [Chip.outTransfer, rst], Encoder.doneWithin_of_idle rfl⟩
  cases state : m.enc.state
  case idle =>
    have notValid : m.inputs.cmdValid = false := by simpa [Chip.cmdTransfer, cmdReady, state, rst] using noCommand
    exact ⟨k, by simp [Chip.outTransfer, outValid, state], by simpa [notValid] using done⟩
  cases ready : m.inputs.outReady
  case false => exact ⟨k, by simp [Chip.outTransfer, ready], by simpa using done⟩
  obtain ⟨pos, fits⟩ := done state
  obtain ⟨l, rfl⟩ := Nat.exists_eq_add_one.2 pos
  refine ⟨l, by simp [Chip.outTransfer, outValid, state, rst, ready, Nat.add_assoc, Nat.add_comm], ?_⟩
  cases last : fin false m.enc.rem
  · exact Encoder.doneWithin_shr7 fits last
  · exact Encoder.doneWithin_of_idle rfl

/-- No step takes a command back. -/
theorem step_next_cmd_isPrefix (h : step ⟨c, m⟩ = .next ⟨c, t⟩) : m.chan.cmd <+: t.chan.cmd := by
  obtain ⟨-, cmd, -⟩ := step_next_encoder h
  exact ⟨_, (cmd.trans m.afterEnc_cmd).symm⟩

theorem FreeRun.cmd_isPrefix {P : Inputs c.W → Prop} {n : Nat} (run : FreeRun P n m t) : m.chan.cmd <+: t.chan.cmd := by
  induction run with
  | start => exact ⟨[], List.append_nil _⟩
  | cycle p _ _ now ih =>
    have grown := step_next_cmd_isPrefix now
    exact ih.trans grown

/-- A step that leaves the record of commands as it was takes no command. -/
theorem no_cmdTransfer_of_step (h : step ⟨c, m⟩ = .next ⟨c, t⟩) (same : t.chan.cmd = m.chan.cmd) :
    m.cmdTransfer = false := by
  obtain ⟨-, cmd, -⟩ := step_next_encoder h
  rw [cmd, Chip.afterEnc_cmd] at same
  simpa using same

/-- Along a run that takes no command, the bytes transferred use up the bytes there were to come at the start. -/
theorem FreeRun.doneWithin {P : Inputs c.W → Prop} {n k : Nat} (unsigned : c.signed = false) (run : FreeRun P n m t)
    (done : m.enc.DoneWithin k) (noCommand : t.chan.cmd = m.chan.cmd) :
    ∃ l, t.chan.out.length + l = m.chan.out.length + k ∧ t.enc.DoneWithin l := by
  induction run with
  | start => exact ⟨k, rfl, done⟩
  | @cycle n m u t p before _ now ih =>
    have grown : u.chan.cmd <+: t.chan.cmd := step_next_cmd_isPrefix (m := u.setInputs p) now
    have sameBefore : u.chan.cmd = m.chan.cmd :=
      (before.cmd_isPrefix.eq_of_length_le (noCommand ▸ grown.length_le)).symm
    obtain ⟨l, sum, doneU⟩ := ih done sameBefore
    have noTransfer := no_cmdTransfer_of_step now (noCommand.trans sameBefore.symm)
    obtain ⟨l', sum', doneT⟩ := Chip.afterEnc_doneWithin (m := u.setInputs p) unsigned doneU noTransfer
    obtain ⟨enc, -, out⟩ := step_next_encoder now
    rw [enc, out]
    exact ⟨l', sum'.trans sum, doneT⟩

/-- Settles O49: at most `NG` bytes are to come at the start, and an encoder with none to come is idle. -/
theorem encoderIsIdleAfterAtMostNgBytes : Obligations.EncoderIsIdleAfterAtMostNgBytes := by
  intro c n m t wide unsigned run noCommand
  have pos : 0 < c.W := by omega
  obtain ⟨l, sum, done⟩ := run.doneWithin unsigned (m.enc.doneWithin_ng pos) noCommand
  refine ⟨by omega, fun all => ?_⟩
  obtain rfl : l = 0 := by omega
  cases state : t.enc.state
  · rfl
  · exact absurd (done state).1 (lt_irrefl 0)

end Sys2Proof.Machine
end

section
/-! ## Proofs, 10_state.md: which operations move the state registers and the error flag (R12, R15, R16, R91) -/

namespace Sys2Proof.Machine

/-- `enc_state` after an encoder operation (R12). -/
def encStateAfter (now : EncState) : EncOp → EncState
  | .reset | .emitl => .idle
  | .load => .emit
  | .idle | .stall | .emit => now

/-- `dec_state` after a decoder operation (R15). -/
def decStateAfter (now : DecState) : DecOp → DecState
  | .reset | .retire => .accum
  | .term | .eos => .result
  | .wait | .cont | .hold => now

/-- `dec_err` after a decoder operation (R16). -/
def decErrAfter (now : Bool) : DecOp → Bool
  | .reset | .retire => false
  | .eos => true
  | .wait | .cont | .term | .hold => now

theorem Chip.afterEnc_state {c : Config} (m : Chip c) :
    m.afterEnc.enc.state = encStateAfter m.enc.state m.encSelect := by
  unfold Chip.afterEnc
  cases m.encSelect <;> rfl

theorem Chip.afterDec_state {c : Config} (m : Chip c) :
    m.afterDec.dec.state = decStateAfter m.dec.state m.decSelect := by
  unfold Chip.afterDec
  cases m.decSelect <;> rfl

theorem Chip.afterDec_err {c : Config} (m : Chip c) :
    m.afterDec.dec.err = decErrAfter m.dec.err m.decSelect := by
  unfold Chip.afterDec
  cases m.decSelect <;> rfl

/-- Settles O42: each of the three registers after a step is a function of its value before and of the selected
operation, read off for every operation. -/
theorem onlyTheseOperationsMoveTheAgents : Obligations.OnlyTheseOperationsMoveTheAgents := by
  intro c m t h
  obtain ⟨tEnc, -, -⟩ := step_next_encoder h
  obtain ⟨tDec, -, -⟩ := step_next_decoder h
  rw [tEnc, tDec, Chip.afterEnc_state, Chip.afterDec_state, Chip.afterDec_err]
  refine ⟨fun now => ?_, fun now => ?_, fun now => ?_, fun now => ?_, fun now => ?_, fun now => ?_⟩ <;> rw [now]
  · cases m.encSelect <;> decide
  · cases m.encSelect <;> decide
  · cases m.decSelect <;> decide
  · cases m.decSelect <;> decide
  · cases m.decSelect <;> decide
  · cases m.decSelect <;> decide

end Sys2Proof.Machine
end

section
/-! ## Proofs, 10_state.md: the saturated position (R14) and the computed flags (R19) -/

namespace Sys2Proof.Machine

/-- From `NG` on every bit of a group falls out, so all positions drop the same groups. -/
theorem drop_eq_of_ng_le {W i j : Nat} (g : Group) (hi : ng W ≤ i) (hj : ng W ≤ j) : drop W g i = drop W g j :=
  Bool.eq_iff_iff.2 ((drop_iff_of_ng_le g hi).trans (drop_iff_of_ng_le g hj).symm)

theorem satIncr_val_eq_ite {n : Nat} (k : Fin (n + 1)) : (satIncr k).val = if k.val < n then k.val + 1 else n := by
  rw [satIncr_val]
  split <;> omega

/-- Settles O5: below `NG` the minimum is the position itself, and from `NG` on nothing of the group is placed. -/
theorem saturatedPositionLosesNothing : Obligations.SaturatedPositionLosesNothing := by
  intro W g i _
  refine ⟨?_, ?_, satIncr_val_eq_ite⟩ <;> obtain below | beyond := le_total i (ng W)
  · rw [min_eq_left below]
  · rw [min_eq_right beyond, place_eq_zero_of_ng_le g le_rfl, place_eq_zero_of_ng_le g beyond]
  · rw [min_eq_left below]
  · rw [min_eq_right beyond, drop_eq_of_ng_le g le_rfl beyond]

theorem outData_bit7 {W : Nat} (signed : Bool) (e : Encoder W) :
    (outData signed e).getLsbD 7 = cont signed e.rem :=
  contBit_byteOf _ _

/-- Settles O6: the flags are the comparisons of `nxt` with 0, which R8 relates. -/
theorem computedFlagsOfTheEncoder : Obligations.ComputedFlagsOfTheEncoder := by
  intro W rem _
  refine ⟨fun signed state => ?_, gt0_unsigned _, fun negative => ?_, gt0_signed_of_msb_false⟩
  · exact ⟨rfl, rfl, eq0_eq_true_iff _, outData_bit7 signed _, rfl⟩
  · exact ⟨gt0_signed_of_msb_true negative, (eq0_eq_false_iff _).2 (ne_zero_of_msb_true negative)⟩

end Sys2Proof.Machine
end

section
/-! ## Proofs, 20_memory.md: the output ports and the channels (R31, R33 to R38, R47) -/

namespace Sys2Proof.Machine

variable {c : Config} {m : Chip c}

/-! ### The output ports (R33, R34) -/

theorem cmdReady_iff {W : Nat} (e : Encoder W) : cmdReady e = true ↔ e.state = .idle := beq_iff_eq

theorem outValid_iff {W : Nat} (e : Encoder W) : outValid e = true ↔ e.state = .emit := beq_iff_eq

theorem inReady_iff {W : Nat} (d : Decoder W) : inReady d = true ↔ d.state = .accum := beq_iff_eq

theorem resValid_iff {W : Nat} (d : Decoder W) : resValid d = true ↔ d.state = .result := beq_iff_eq

theorem groupOf_getLsbD (b : Byte) {k : Nat} (h : k < 7) : (groupOf b).getLsbD k = b.getLsbD k := by
  simp [groupOf, h]

/-- The low bits of the offered byte are those of what is left to emit. -/
theorem outData_getLsbD {W : Nat} (signed : Bool) (e : Encoder W) {k : Nat} (h : k < 7) :
    (outData signed e).getLsbD k = e.rem.getLsbD k := by
  rw [← groupOf_getLsbD _ h, outData, groupOf_byteOf, low7_getLsbD _ _ h]

/-- R78 item 2: without a sign bit a byte is the last one exactly when its continuation bit is clear. -/
theorem outLast_unsigned {W : Nat} (e : Encoder W) : outLast false e = !(outData false e).getLsbD 7 := by
  rw [outData_bit7, cont, gt0_unsigned, Bool.not_not]
  rfl

/-- Settles O7: each `valid` and `ready` compares the state register, and the byte is taken apart into its two fields. -/
theorem outputPortsFromTheRegisters : Obligations.OutputPortsFromTheRegisters :=
  ⟨fun _ signed e _ =>
    ⟨cmdReady_iff e, outValid_iff e, outData_bit7 signed e, fun _ hk => outData_getLsbD signed e hk, rfl,
      outputs_of_rem_zero signed, outLast_unsigned e⟩,
    fun _ d => ⟨inReady_iff d, resValid_iff d, rfl, rfl, rfl⟩⟩

/-! ### The transfers (R31) -/

theorem Chip.cmdTransfer_iff (m : Chip c) :
    m.cmdTransfer = true ↔ m.inputs.cmdValid ∧ m.enc.state = .idle ∧ ¬m.inputs.rst := by
  simp [Chip.cmdTransfer, cmdReady_iff, and_assoc]

theorem Chip.outTransfer_iff (m : Chip c) :
    m.outTransfer = true ↔ m.enc.state = .emit ∧ m.inputs.outReady ∧ ¬m.inputs.rst := by
  simp [Chip.outTransfer, outValid_iff, and_assoc]

theorem Chip.tokTransfer_iff (m : Chip c) :
    m.tokTransfer = true ↔ m.inputs.inValid ∧ m.dec.state = .accum ∧ ¬m.inputs.rst := by
  simp [Chip.tokTransfer, inReady_iff, and_assoc]

theorem Chip.resTransfer_iff (m : Chip c) :
    m.resTransfer = true ↔ m.dec.state = .result ∧ m.inputs.resReady ∧ ¬m.inputs.rst := by
  simp [Chip.resTransfer, resValid_iff, and_assoc]

/-- Settles O40: a step's channel records are those after the agent's own operation, which grow by the transfer. -/
theorem channelsMoveExactlyOnTransfers : Obligations.ChannelsMoveExactlyOnTransfers := by
  intro c m t h
  obtain ⟨-, cmd, out⟩ := step_next_encoder h
  obtain ⟨-, tok, res⟩ := step_next_decoder h
  rw [cmd, out, tok, res, Chip.afterEnc_cmd, Chip.afterEnc_out, Chip.afterDec_tok, Chip.afterDec_res]
  exact ⟨congrArg _ (if_congr m.cmdTransfer_iff rfl rfl), congrArg _ (if_congr m.outTransfer_iff rfl rfl),
    congrArg _ (if_congr m.tokTransfer_iff rfl rfl), congrArg _ (if_congr m.resTransfer_iff rfl rfl)⟩

/-! ### What waits (R47) -/

/-- An encoder whose byte is not taken keeps its registers (R73). -/
theorem Chip.afterEnc_enc_of_waiting (rst : m.inputs.rst = false) (offered : outValid m.enc = true)
    (notTaken : m.outTransfer = false) : m.afterEnc.enc = m.enc := by
  have notReady : m.inputs.outReady = false := by simpa [Chip.outTransfer, offered, rst] using notTaken
  simp [Chip.afterEnc_enc, rst, (outValid_iff _).1 offered, notReady]

/-- A decoder whose result is not taken keeps its registers (R101). -/
theorem Chip.afterDec_dec_of_waiting (rst : m.inputs.rst = false) (offered : resValid m.dec = true)
    (notTaken : m.resTransfer = false) : m.afterDec.dec = m.dec := by
  have notReady : m.inputs.resReady = false := by simpa [Chip.resTransfer, offered, rst] using notTaken
  simp [Chip.afterDec_dec, rst, (resValid_iff _).1 offered, notReady]

/-- Settles O41: the offers are functions of registers that a waiting agent keeps. -/
theorem offersAreStableUntilTaken : Obligations.OffersAreStableUntilTaken := by
  intro c m t h rst
  obtain ⟨enc, -, -⟩ := step_next_encoder h
  obtain ⟨dec, -, -⟩ := step_next_decoder h
  refine ⟨fun offered notTaken => ?_, fun offered notTaken => ?_⟩
  · rw [enc, Chip.afterEnc_enc_of_waiting rst offered notTaken]
    exact ⟨offered, rfl, rfl⟩
  · rw [dec, Chip.afterDec_dec_of_waiting rst offered notTaken]
    exact ⟨offered, rfl⟩

end Sys2Proof.Machine
end

section
/-! ## Proofs, 20_memory.md: which input data a step reads (R31, R36, R46) -/

namespace Sys2Proof.Machine

variable {c : Config} {m : Chip c} {p : Inputs c.W}

/-- Two port patterns that agree on `rst` and on every `valid` and `ready`: they differ in the data ports at most. -/
structure Inputs.SameHandshake {W : Nat} (p q : Inputs W) : Prop where
  rst : p.rst = q.rst
  cmdValid : p.cmdValid = q.cmdValid
  outReady : p.outReady = q.outReady
  inValid : p.inValid = q.inValid
  resReady : p.resReady = q.resReady

/-- A token is its end mark and, without one, its byte (R36). -/
theorem tokRead_eq_iff {W : Nat} {p q : Inputs W} :
    tokRead p = tokRead q ↔ p.inEos = q.inEos ∧ (q.inEos = false → p.inData = q.inData) := by
  cases hp : p.inEos <;> cases hq : q.inEos <;> simp [tokRead, hp, hq]

/-! ### The encoder -/

/-- A command is transferred exactly in ENC.LOAD (R72). -/
theorem Chip.encSelect_eq_load_iff (m : Chip c) : m.encSelect = .load ↔ m.cmdTransfer = true := by
  rw [Chip.cmdTransfer_iff, Chip.encSelect_eq]
  cases m.inputs.rst
  case true => simp
  cases m.enc.state
  case idle => simp
  case emit => cases m.inputs.outReady <;> cases fin c.signed m.enc.rem <;> simp

/-- The encoder's operation is selected by the handshake and its own registers (R58). -/
theorem Chip.setInputs_encSelect (same : p.SameHandshake m.inputs) : (m.setInputs p).encSelect = m.encSelect := by
  obtain ⟨rst, cmdValid, outReady, -, -⟩ := same
  rw [Chip.encSelect_eq, Chip.encSelect_eq, Chip.setInputs_inputs, Chip.setInputs_enc, rst, cmdValid, outReady]

/-- The encoder's operation reads `cmd_value` only when a command is transferred. -/
theorem Chip.setInputs_afterEnc (same : p.SameHandshake m.inputs)
    (command : m.cmdTransfer = true → p.cmdValue = m.inputs.cmdValue) :
    (m.setInputs p).afterEnc = m.afterEnc.setInputs p := by
  unfold Chip.afterEnc
  rw [Chip.setInputs_encSelect same]
  cases op : m.encSelect
  case load =>
    have value : p.cmdValue = m.inputs.cmdValue := command ((m.encSelect_eq_load_iff).1 op)
    simp only [Chip.setInputs_inputs, value]
    rfl
  all_goals rfl

/-! ### The decoder -/

/-- The operations that take a token are selected only in its transfer, DEC.EOS for an end mark and the others for a
byte (R59). -/
theorem Chip.tokTransfer_of_decSelect {op : DecOp} (selected : m.decSelect = op)
    (takes : op = .cont ∨ op = .term ∨ op = .eos) :
    m.tokTransfer = true ∧ (op ≠ .eos → m.inputs.inEos = false) := by
  subst selected
  revert takes
  rw [Chip.decSelect_eq, Chip.tokTransfer_iff]
  cases m.inputs.rst
  case true => simp
  cases m.dec.state
  case result => cases m.inputs.resReady <;> simp
  cases m.inputs.inValid
  case false => simp
  cases m.inputs.inEos <;> simp

/-- The decoder's operation is selected by the handshake, its own registers and the token transferred (R59). -/
theorem Chip.setInputs_decSelect (same : p.SameHandshake m.inputs)
    (token : m.tokTransfer = true → tokRead p = tokRead m.inputs) : (m.setInputs p).decSelect = m.decSelect := by
  rw [Chip.tokTransfer_iff] at token
  obtain ⟨rst, -, -, inValid, resReady⟩ := same
  rw [Chip.decSelect_eq, Chip.decSelect_eq, Chip.setInputs_inputs, Chip.setInputs_dec, rst, inValid, resReady]
  cases reset : m.inputs.rst
  case true => rfl
  cases state : m.dec.state
  case result => rfl
  cases valid : m.inputs.inValid
  case false => rfl
  obtain ⟨eos, data⟩ := tokRead_eq_iff.1 (token ⟨valid, state, by simp [reset]⟩)
  cases mark : m.inputs.inEos
  · simp [eos, mark, data mark]
  · simp [eos, mark]

/-- The decoder's operation reads the token only when one is transferred, and `in_data` only of a byte. -/
theorem Chip.setInputs_afterDec (same : p.SameHandshake m.inputs)
    (token : m.tokTransfer = true → tokRead p = tokRead m.inputs) :
    (m.setInputs p).afterDec = m.afterDec.setInputs p := by
  unfold Chip.afterDec
  rw [Chip.setInputs_decSelect same token]
  cases op : m.decSelect
  case cont | term =>
    obtain ⟨transfer, noMark⟩ := Chip.tokTransfer_of_decSelect op (by simp)
    have data : p.inData = m.inputs.inData := (tokRead_eq_iff.1 (token transfer)).2 (noMark (by simp))
    simp only [Chip.setInputs_inputs, Chip.setInputs_dec, token transfer, data]
    rfl
  case eos =>
    obtain ⟨transfer, -⟩ := Chip.tokTransfer_of_decSelect op (by simp)
    simp only [Chip.setInputs_inputs, Chip.setInputs_dec, token transfer]
    rfl
  all_goals rfl

/-! ### The step -/

/-- The transfers of a cycle are decided by the handshake (R31). -/
theorem Chip.setInputs_transfers (same : p.SameHandshake m.inputs) : (m.setInputs p).transfers = m.transfers := by
  obtain ⟨rst, cmdValid, outReady, inValid, resReady⟩ := same
  simp [Chip.transfers, Chip.cmdTransfer, Chip.outTransfer, Chip.tokTransfer, Chip.resTransfer, rst, cmdValid, outReady,
    inValid, resReady]

/-- A step reads the handshake, the command when one is transferred, and the token when one is transferred. -/
theorem step_setInputs (same : p.SameHandshake m.inputs)
    (command : m.cmdTransfer = true → p.cmdValue = m.inputs.cmdValue)
    (token : m.tokTransfer = true → tokRead p = tokRead m.inputs) :
    step ⟨c, m.setInputs p⟩ = step ⟨c, m⟩ := by
  cases supported : c.supported
  · rw [step_unsupported _ supported, step_unsupported _ supported]
  · obtain ⟨inputs, dec, -, -, -⟩ := m.afterEnc_frame
    have decoder : (m.afterEnc.setInputs p).afterDec = m.afterEnc.afterDec.setInputs p := by
      apply Chip.setInputs_afterDec
      · rwa [inputs]
      · rwa [Chip.tokTransfer, inputs, dec]
    rw [step_eq _ supported, step_eq _ supported, Chip.setInputs_transfers same, Chip.setInputs_afterEnc same command,
      decoder]
    rfl

/-- Settles O45: each change of a data port leaves the handshake and what is read of the transfers as they were. -/
theorem unqualifiedInputsAreNotRead : Obligations.UnqualifiedInputsAreNotRead := by
  intro c m v b e _
  refine ⟨fun noCommand => ?_, fun noToken => ?_, fun eos => ?_⟩
  · exact step_setInputs (m := m) ⟨rfl, rfl, rfl, rfl, rfl⟩ (by simp [noCommand]) (fun _ => rfl)
  · exact step_setInputs (m := m) ⟨rfl, rfl, rfl, rfl, rfl⟩ (fun _ => rfl) (by simp [noToken])
  · exact step_setInputs (m := m) ⟨rfl, rfl, rfl, rfl, rfl⟩ (fun _ => rfl)
      (fun _ => tokRead_eq_iff.2 ⟨rfl, by simp [eos]⟩)

end Sys2Proof.Machine
end

section
/-! ## Proofs, 30_encoding.md: the words of the five formats (R50, R52 to R54, R58 to R61) -/

namespace Sys2Proof.Machine

/-! ### The tables -/

/-- Settles O27, by evaluating each of the 32 words. -/
theorem encoderSelectTableIsExact : Obligations.EncoderSelectTableIsExact := by
  unfold Obligations.EncoderSelectTableIsExact
  decide

/-- Settles O28, by evaluating each of the 64 words. -/
theorem decoderSelectTableIsExact : Obligations.DecoderSelectTableIsExact := by
  unfold Obligations.DecoderSelectTableIsExact
  decide

/-- Settles O29, by evaluating each token and each byte. -/
theorem tokenAndByteClassesByMask : Obligations.TokenAndByteClassesByMask := by
  unfold Obligations.TokenAndByteClassesByMask
  decide

/-- Settles O30, by evaluating the nine words. -/
theorem decodedWordsOfEachFormat : Obligations.DecodedWordsOfEachFormat :=
  ⟨rfl, rfl, rfl, rfl, rfl, rfl, rfl, rfl, rfl⟩

/-- A row of the encoder's table hits exactly the words that select its operation (R61). -/
theorem esRows_hits_iff : ∀ r ∈ esRows, ∀ w : BitVec 5, r.hits w = true ↔ decodeEs w = r.op := by
  unfold esRows
  decide

/-- A row of the decoder's table hits exactly the words that select its operation (R61). -/
theorem dsRows_hits_iff : ∀ r ∈ dsRows, ∀ w : BitVec 6, r.hits w = true ↔ decodeDs w = r.op := by
  unfold dsRows
  decide

theorem exists_esRow (op : EncOp) : ∃ r ∈ esRows, r.op = op := by
  cases op <;> simp [esRows]

theorem exists_dsRow (op : DecOp) : ∃ r ∈ dsRows, r.op = op := by
  cases op <;> simp [dsRows]

/-- Two words that a row hits agree in every bit the row reads. -/
theorem SelectRow.hits_agree {n : Nat} {α : Type} {r : SelectRow n α} {w v : BitVec n} (hitsW : r.hits w = true)
    (hitsV : r.hits v = true) : w.toNat &&& r.mask.toNat = v.toNat &&& r.mask.toNat := by
  have same : w &&& r.mask = v &&& r.mask := (beq_iff_eq.1 hitsW).trans (beq_iff_eq.1 hitsV).symm
  rw [← BitVec.toNat_and, same, BitVec.toNat_and]

/-! ### Reading a word of each format -/

theorem decode_tok_toNat (w : BitVec 9) : decode .tok w.toNat = .ok (decodeTok w) := by
  have fits : w.toNat < 512 := w.isLt
  simp [decode, Format.bits, fits]

theorem decode_vb_toNat (b : Byte) : decode .vb b.toNat = .ok (decodeVb b) := by
  have fits : b.toNat < 256 := b.isLt
  simp [decode, Format.bits, fits]

theorem decode_cmd {W v : Nat} (wide : 8 ≤ W) (fits : v < 2 ^ W) : decode (.cmd W) v = .ok (.encode v) := by
  simp [decode, Format.bits, Nat.not_le.2 fits, Nat.not_lt.2 wide]

/-- The varint byte with these two fields (R50). -/
def vbInstr (k : Bool) (g : Group) : Instr := if k then .vbCont g else .vbTerm g

/-- The token of the byte with these two fields (R53). -/
def tokInstr (k : Bool) (g : Group) : Instr := if k then .tokCont g else .tokTerm g

theorem decodeVb_eq (b : Byte) : decodeVb b = vbInstr (contBit b) (groupOf b) := rfl

/-- A token word is its end mark and its byte (R52). -/
theorem decodeTok_append (e : Bool) (b : Byte) :
    decodeTok (BitVec.ofBool e ++ b) = if e then .tokEos else tokInstr (contBit b) (groupOf b) := by
  have mark : (BitVec.ofBool e ++ b).getLsbD 8 = e := by
    rw [BitVec.getLsbD_append]
    simp
  have flag : (BitVec.ofBool e ++ b).getLsbD 7 = contBit b := by
    rw [BitVec.getLsbD_append]
    rfl
  have group : (BitVec.ofBool e ++ b).setWidth 7 = groupOf b := by
    refine BitVec.eq_of_getLsbD_eq fun k hk => ?_
    rw [BitVec.getLsbD_setWidth, BitVec.getLsbD_append, if_pos (by omega), groupOf, BitVec.getLsbD_setWidth]
  rw [decodeTok, mark, flag, group]
  rfl

/-- Every token word is put together of an end mark and a byte (R52). -/
theorem tokWord_eq_append (w : BitVec 9) : BitVec.ofBool (w.getLsbD 8) ++ w.setWidth 8 = w := by
  refine BitVec.eq_of_getLsbD_eq fun k hk => ?_
  rw [BitVec.getLsbD_append]
  split
  · next inByte => rw [BitVec.getLsbD_setWidth, decide_eq_true inByte, Bool.true_and]
  · obtain rfl : k = 8 := by omega
    simp

/-! ### Decoding an encoded instruction -/

/-- The word of an encoder operation selects it (R58). -/
theorem encode_encOp (W : Nat) (op : EncOp) :
    ∃ w : BitVec 5, encode W op.instr = (.es, w.toNat) ∧ decodeEs w = op := by
  cases op
  exacts [⟨0b10000#5, rfl, rfl⟩, ⟨0b00000#5, rfl, rfl⟩, ⟨0b00100#5, rfl, rfl⟩, ⟨0b01000#5, rfl, rfl⟩,
    ⟨0b01010#5, rfl, rfl⟩, ⟨0b01011#5, rfl, rfl⟩]

/-- The word of a decoder operation selects it (R59). -/
theorem encode_decOp (W : Nat) (op : DecOp) :
    ∃ w : BitVec 6, encode W op.instr = (.ds, w.toNat) ∧ decodeDs w = op := by
  cases op
  exacts [⟨0b100000#6, rfl, rfl⟩, ⟨0b000000#6, rfl, rfl⟩, ⟨0b001010#6, rfl, rfl⟩, ⟨0b001000#6, rfl, rfl⟩,
    ⟨0b001100#6, rfl, rfl⟩, ⟨0b010000#6, rfl, rfl⟩, ⟨0b010001#6, rfl, rfl⟩]

/-- The word of a byte token is its byte, without the end mark (R52). -/
theorem encode_tokInstr (W : Nat) (k : Bool) (g : Group) :
    encode W (tokInstr k g) = (.tok, (BitVec.ofBool false ++ byteOf k g).toNat) := by
  have cont : (0b01#2 ++ g).toNat = (BitVec.ofBool false ++ byteOf true g).toNat := by revert g; decide
  have term : (0b00#2 ++ g).toNat = (BitVec.ofBool false ++ byteOf false g).toNat := by revert g; decide
  cases k
  · exact congrArg (Prod.mk Format.tok) term
  · exact congrArg (Prod.mk Format.tok) cont

theorem encode_vbInstr (W : Nat) (k : Bool) (g : Group) : encode W (vbInstr k g) = (.vb, (byteOf k g).toNat) := by
  cases k <;> rfl

theorem decode_encode_encOp (W : Nat) (op : EncOp) :
    decode (encode W op.instr).1 (encode W op.instr).2 = .ok op.instr := by
  obtain ⟨w, word, selects⟩ := encode_encOp W op
  rw [word, decode_es_toNat, selects]

theorem decode_encode_decOp (W : Nat) (op : DecOp) :
    decode (encode W op.instr).1 (encode W op.instr).2 = .ok op.instr := by
  obtain ⟨w, word, selects⟩ := encode_decOp W op
  rw [word, decode_ds_toNat, selects]

theorem decode_encode_tokInstr (W : Nat) (k : Bool) (g : Group) :
    decode (encode W (tokInstr k g)).1 (encode W (tokInstr k g)).2 = .ok (tokInstr k g) := by
  rw [encode_tokInstr, decode_tok_toNat, decodeTok_append, contBit_byteOf, groupOf_byteOf]
  rfl

theorem decode_encode_vbInstr (W : Nat) (k : Bool) (g : Group) :
    decode (encode W (vbInstr k g)).1 (encode W (vbInstr k g)).2 = .ok (vbInstr k g) := by
  rw [encode_vbInstr, decode_vb_toNat, decodeVb_eq, contBit_byteOf, groupOf_byteOf]

/-- Settles O31: the word of an operation selects it, that of a token or byte has its flag and its group as fields, and
that of a command is its value. -/
theorem decodeOfEncodeIsTheInstruction : Obligations.DecodeOfEncodeIsTheInstruction := by
  intro W i wellFormed
  cases i with
  | encode v =>
    obtain ⟨wide, fits⟩ : 8 ≤ W ∧ v < 2 ^ W := by simpa [Instr.wellFormed, Instr.operandFits] using wellFormed
    exact decode_cmd wide fits
  | encReset => exact decode_encode_encOp W .reset
  | encIdle => exact decode_encode_encOp W .idle
  | encLoad => exact decode_encode_encOp W .load
  | encStall => exact decode_encode_encOp W .stall
  | encEmit => exact decode_encode_encOp W .emit
  | encEmitl => exact decode_encode_encOp W .emitl
  | decReset => exact decode_encode_decOp W .reset
  | decWait => exact decode_encode_decOp W .wait
  | decCont => exact decode_encode_decOp W .cont
  | decTerm => exact decode_encode_decOp W .term
  | decEos => exact decode_encode_decOp W .eos
  | decHold => exact decode_encode_decOp W .hold
  | decRetire => exact decode_encode_decOp W .retire
  | tokCont g => exact decode_encode_tokInstr W true g
  | tokTerm g => exact decode_encode_tokInstr W false g
  | tokEos => exact decode_tok_toNat 0b100000000#9
  | vbCont g => exact decode_encode_vbInstr W true g
  | vbTerm g => exact decode_encode_vbInstr W false g

/-! ### Encoding a decoded word -/

theorem encOp_wellFormed {W : Nat} (wide : 8 ≤ W) (op : EncOp) : op.instr.wellFormed W = true := by
  cases op <;> simp [EncOp.instr, Instr.wellFormed, Instr.operandFits, wide]

theorem decOp_wellFormed {W : Nat} (wide : 8 ≤ W) (op : DecOp) : op.instr.wellFormed W = true := by
  cases op <;> simp [DecOp.instr, Instr.wellFormed, Instr.operandFits, wide]

theorem tokInstr_wellFormed {W : Nat} (wide : 8 ≤ W) (k : Bool) (g : Group) : (tokInstr k g).wellFormed W = true := by
  cases k <;> simp [tokInstr, Instr.wellFormed, Instr.operandFits, wide]

theorem vbInstr_wellFormed {W : Nat} (wide : 8 ≤ W) (k : Bool) (g : Group) : (vbInstr k g).wellFormed W = true := by
  cases k <;> simp [vbInstr, Instr.wellFormed, Instr.operandFits, wide]

/-- The encoded word of the operation `w` selects agrees with `w` in every bit of that operation's row (R61). -/
theorem encode_decodeEs (W : Nat) (w : BitVec 5) :
    (encode W (decodeEs w).instr).1 = .es ∧ ∃ r ∈ esRows, r.op.instr = (decodeEs w).instr ∧
      w.toNat &&& r.mask.toNat = (encode W (decodeEs w).instr).2 &&& r.mask.toNat := by
  obtain ⟨v, word, selects⟩ := encode_encOp W (decodeEs w)
  obtain ⟨r, mem, op⟩ := exists_esRow (decodeEs w)
  rw [word]
  refine ⟨rfl, r, mem, by rw [op], SelectRow.hits_agree ?_ ?_⟩
  · exact (esRows_hits_iff r mem w).2 op.symm
  · exact (esRows_hits_iff r mem v).2 (selects.trans op.symm)

/-- The encoded word of the operation `w` selects agrees with `w` in every bit of that operation's row (R61). -/
theorem encode_decodeDs (W : Nat) (w : BitVec 6) :
    (encode W (decodeDs w).instr).1 = .ds ∧ ∃ r ∈ dsRows, r.op.instr = (decodeDs w).instr ∧
      w.toNat &&& r.mask.toNat = (encode W (decodeDs w).instr).2 &&& r.mask.toNat := by
  obtain ⟨v, word, selects⟩ := encode_decOp W (decodeDs w)
  obtain ⟨r, mem, op⟩ := exists_dsRow (decodeDs w)
  rw [word]
  refine ⟨rfl, r, mem, by rw [op], SelectRow.hits_agree ?_ ?_⟩
  · exact (dsRows_hits_iff r mem w).2 op.symm
  · exact (dsRows_hits_iff r mem v).2 (selects.trans op.symm)

/-- A byte is its flag and its group, so its instruction's word is the byte (R50). -/
theorem encode_decodeVb (W : Nat) (b : Byte) : encode W (decodeVb b) = (.vb, b.toNat) := by
  rw [decodeVb_eq, encode_vbInstr, byteOf_contBit_groupOf]

/-- A token word is that of a byte, or has the end mark (R53). -/
theorem decodeTok_cases (w : BitVec 9) :
    (∃ b : Byte, w = BitVec.ofBool false ++ b ∧ decodeTok w = tokInstr (contBit b) (groupOf b)) ∨
      (decodeTok w = .tokEos ∧ w.toNat &&& 0x100 = 0x100) := by
  have parts := tokWord_eq_append w
  generalize w.setWidth 8 = b at parts
  cases mark : w.getLsbD 8 <;> rw [mark] at parts <;> subst parts
  · exact .inl ⟨b, rfl, decodeTok_append false b⟩
  · exact .inr ⟨decodeTok_append true b, by revert b; decide⟩

/-- A number below `2 ^ n` is a word of `n` bits. -/
theorem exists_word_of_lt {n w : Nat} (fits : w < 2 ^ n) : ∃ v : BitVec n, v.toNat = w :=
  ⟨BitVec.ofNat n w, by rw [BitVec.toNat_ofNat, Nat.mod_eq_of_lt fits]⟩

/-- Settles O32: a select word by its row, a token by its end mark and byte, a byte by its flag and group, a command as
its value. -/
theorem everyWordOfAFormatIsAnInstruction : Obligations.EveryWordOfAFormatIsAnInstruction := by
  intro W f n wide fits width
  cases f with
  | es =>
    obtain ⟨w, rfl⟩ := exists_word_of_lt (n := 5) fits
    obtain ⟨format, r, mem, op, agree⟩ := encode_decodeEs W w
    exact ⟨_, decode_es_toNat w, encOp_wellFormed wide _, format, .inr (.inr (.inl ⟨r, mem, rfl, op, agree⟩))⟩
  | ds =>
    obtain ⟨w, rfl⟩ := exists_word_of_lt (n := 6) fits
    obtain ⟨format, r, mem, op, agree⟩ := encode_decodeDs W w
    exact ⟨_, decode_ds_toNat w, decOp_wellFormed wide _, format, .inr (.inr (.inr ⟨r, mem, rfl, op, agree⟩))⟩
  | tok =>
    obtain ⟨w, rfl⟩ := exists_word_of_lt (n := 9) fits
    refine ⟨_, decode_tok_toNat w, ?_⟩
    obtain ⟨b, rfl, byte⟩ | ⟨mark, bit⟩ := decodeTok_cases w
    · rw [byte, encode_tokInstr, byteOf_contBit_groupOf]
      exact ⟨tokInstr_wellFormed wide _ _, rfl, .inl rfl⟩
    · rw [mark]
      exact ⟨by simp [Instr.wellFormed, Instr.operandFits, wide], rfl, .inr (.inl ⟨rfl, rfl, bit⟩)⟩
  | vb =>
    obtain ⟨b, rfl⟩ := exists_word_of_lt (n := 8) fits
    refine ⟨_, decode_vb_toNat b, vbInstr_wellFormed wide _ _, ?_⟩
    rw [encode_decodeVb]
    exact ⟨rfl, .inl rfl⟩
  | cmd V =>
    obtain rfl := width V rfl
    have value : n < 2 ^ V := fits
    exact ⟨.encode n, decode_cmd wide fits, by simp [Instr.wellFormed, Instr.operandFits, wide, value], rfl, .inl rfl⟩

end Sys2Proof.Machine
end

section
/-! ## Proofs, 30_encoding.md: the operation of a cycle, and what is presented in it (R53, R54, R58 to R63) -/

namespace Sys2Proof.Machine

variable {c : Config} {m : Chip c}

/-! ### Every cycle performs the operations it selects, and no other (R60, R61) -/

/-- Settles O36: a step at a supported width is its two operations and the end of the cycle. -/
theorem everyCycleHasANextState : Obligations.EveryCycleHasANextState := fun c m wide =>
  ⟨_, step_eq m ((Config.supported_iff c).2 wide)⟩

theorem exec_encOp_of_ne {op : EncOp} (supported : c.supported = true) (other : op ≠ m.encSelect) :
    exec op.instr ⟨c, m⟩ = .refused .notSelected := by
  cases op <;> exact (if_pos supported).trans (if_neg other.symm)

theorem exec_decOp_of_ne {op : DecOp} (supported : c.supported = true) (other : op ≠ m.decSelect) :
    exec op.instr ⟨c, m⟩ = .refused .notSelected := by
  cases op <;> exact (if_pos supported).trans (if_neg other.symm)

/-- Settles O38: the selected operation answers a next state, and any other is stopped by its agent's guard. -/
theorem unselectedOperationsAreRefused : Obligations.UnselectedOperationsAreRefused := by
  intro c m wide
  have supported := (Config.supported_iff c).2 wide
  refine ⟨fun op => ⟨?_, exec_encOp_of_ne supported⟩, fun op => ⟨?_, exec_decOp_of_ne supported⟩⟩
  · rintro refused rfl
    nomatch (exec_encSelect m supported).symm.trans refused
  · rintro refused rfl
    nomatch (exec_decSelect m supported).symm.trans refused

/-! ### What is presented is what the agent's cycle takes (R62, R63) -/

theorem exec_tokInstr (k : Bool) (g : Group) (s : State) :
    exec (tokInstr k g) s = tokenCycle (.byte (byteOf k g)) s := by
  cases k <;> rfl

theorem exec_vbInstr (k : Bool) (g : Group) (s : State) :
    exec (vbInstr k g) s = tokenCycle (.byte (byteOf k g)) s := by
  cases k <;> rfl

/-- The instruction of a token word is the decoder's cycle with that token presented (R53). -/
theorem exec_decodeTok (e : Bool) (b : Byte) (s : State) :
    exec (decodeTok (BitVec.ofBool e ++ b)) s = tokenCycle (if e then .eos else .byte b) s := by
  rw [decodeTok_append]
  cases e
  · exact (exec_tokInstr _ _ s).trans (by rw [byteOf_contBit_groupOf]; rfl)
  · rfl

/-- The instruction of a byte is the decoder's cycle with that byte presented (R50). -/
theorem exec_decodeVb (b : Byte) (s : State) : exec (decodeVb b) s = tokenCycle (.byte b) s := by
  rw [decodeVb_eq, exec_vbInstr, byteOf_contBit_groupOf]

theorem Inputs.with_command_self {W : Nat} {p : Inputs W} (valid : p.cmdValid = true) (ready : p.outReady = true) :
    { p with cmdValid := true, outReady := true } = p := by
  cases p; cases valid; cases ready; rfl

theorem Inputs.with_token_self {W : Nat} {p : Inputs W} {e : Bool} (valid : p.inValid = true) (mark : p.inEos = e) :
    { p with inValid := true, inEos := e } = p := by
  cases p; cases valid; cases mark; rfl

/-- Presenting the command that is on the ports changes nothing. -/
theorem Chip.presentCommand_self (valid : m.inputs.cmdValid = true) (ready : m.inputs.outReady = true) :
    m.presentCommand m.inputs.cmdValue = m :=
  congrArg m.setInputs (Inputs.with_command_self valid ready)

/-- Presenting the token that is on the ports changes nothing. -/
theorem Chip.presentToken_self (valid : m.inputs.inValid = true) : m.presentToken (tokRead m.inputs) = m := by
  rw [tokRead]
  cases mark : m.inputs.inEos <;> exact congrArg m.setInputs (Inputs.with_token_self valid mark)

/-- The cycle with the token on the ports presented is the decoder's own. -/
theorem tokenCycle_tokRead (valid : m.inputs.inValid = true) :
    tokenCycle (tokRead m.inputs) ⟨c, m⟩ = exec m.decSelect.instr ⟨c, m⟩ := by
  rw [tokenCycle, decoderCycle_eq_exec, Chip.presentToken_self valid]

/-- Settles O34: what the ports hold is presented already, so executing it is the agent's cycle as it stands. -/
theorem presentedInstructionIsTheAgentsCycle : Obligations.PresentedInstructionIsTheAgentsCycle := by
  intro c m _
  refine ⟨fun valid ready => ?_, fun i valid word => ?_, fun i valid noMark word => ?_⟩
  · rw [exec_encode_of_lt m.inputs.cmdValue.isLt, BitVec.ofNat_toNat, BitVec.setWidth_eq,
      Chip.presentCommand_self valid ready, encoderCycle_eq_exec]
  · rw [decode_tok_toNat] at word
    rw [← Except.ok.inj word, exec_decodeTok]
    exact tokenCycle_tokRead valid
  · have byte : tokRead m.inputs = .byte m.inputs.inData := by simp [tokRead, noMark]
    rw [decode_vb_toNat] at word
    rw [← Except.ok.inj word, exec_decodeVb, ← byte]
    exact tokenCycle_tokRead valid

/-! ### Tokens and bytes presented (R53, R95 to R98) -/

/-- At a supported width the cycle with a token presented gives the chip after the decoder's operation. -/
theorem tokenCycle_eq (supported : c.supported = true) (tok : Token) :
    tokenCycle tok ⟨c, m⟩ = .next ⟨c, (m.presentToken tok).afterDec⟩ := by
  rw [tokenCycle, decoderCycle_eq_exec]
  exact exec_decSelect _ supported

/-- The operation a presented byte selects in a decoder that accepts it (R59). -/
theorem Chip.presentByte_decSelect (rst : m.inputs.rst = false) (accum : m.dec.state = .accum) (k : Bool) (g : Group) :
    (m.presentToken (.byte (byteOf k g))).decSelect = if k then .cont else .term := by
  simp [Chip.decSelect_eq, Chip.presentToken, rst, accum]

/-- The operation a presented end mark selects in a decoder that accepts it (R59). -/
theorem Chip.presentEos_decSelect (rst : m.inputs.rst = false) (accum : m.dec.state = .accum) :
    (m.presentToken .eos).decSelect = .eos := by
  simp [Chip.decSelect_eq, Chip.presentToken, rst, accum]

/-- A continuation byte presented to a decoder that accepts it places its group and moves on (R96). -/
theorem tokenCycle_cont (supported : c.supported = true) (rst : m.inputs.rst = false) (accum : m.dec.state = .accum)
    (g : Group) :
    tokenCycle (.byte (byteOf true g)) ⟨c, m⟩ =
      .next ⟨c, ((m.presentToken (.byte (byteOf true g))).tokTaken (.byte (byteOf true g))).setDec
        { m.dec with
          acc := m.dec.acc ||| place c.W g m.dec.idx.val
          ovf := m.dec.ovf || drop c.W g m.dec.idx.val
          idx := satIncr m.dec.idx }⟩ := by
  rw [tokenCycle_eq supported, Chip.afterDec, Chip.presentByte_decSelect rst accum]
  simp [Chip.presentToken, tokRead, accNext, ovfNext]

/-- A terminating byte presented to a decoder that accepts it places its group and ends the decode (R97). -/
theorem tokenCycle_term (supported : c.supported = true) (rst : m.inputs.rst = false) (accum : m.dec.state = .accum)
    (g : Group) :
    tokenCycle (.byte (byteOf false g)) ⟨c, m⟩ =
      .next ⟨c, ((m.presentToken (.byte (byteOf false g))).tokTaken (.byte (byteOf false g))).setDec
        { m.dec with
          acc := m.dec.acc ||| place c.W g m.dec.idx.val
          ovf := m.dec.ovf || drop c.W g m.dec.idx.val
          state := .result }⟩ := by
  rw [tokenCycle_eq supported, Chip.afterDec, Chip.presentByte_decSelect rst accum]
  simp [Chip.presentToken, tokRead, accNext, ovfNext]

/-- An end mark presented to a decoder that accepts it raises TruncatedInput (R98). -/
theorem tokenCycle_eos (supported : c.supported = true) (rst : m.inputs.rst = false) (accum : m.dec.state = .accum) :
    tokenCycle .eos ⟨c, m⟩ =
      .next ⟨c, ((m.presentToken .eos).tokTaken .eos).setDec (raiseTruncatedInput m.dec)⟩ := by
  rw [tokenCycle_eq supported, Chip.afterDec, Chip.presentEos_decSelect rst accum]
  rfl

/-- Settles O21: a token and a varint byte are the decoder's cycle with the same byte presented. -/
theorem tokensAndBytesActOnTheDecoder : Obligations.TokensAndBytesActOnTheDecoder := by
  intro c m g wide rst accum
  have supported := (Config.supported_iff c).2 wide
  simp only [List.forall_mem_cons, List.not_mem_nil, false_implies, implies_true, and_true]
  have cont := tokenCycle_cont supported rst accum g
  have term := tokenCycle_term supported rst accum g
  exact ⟨⟨cont, cont⟩, ⟨term, term⟩, tokenCycle_eos supported rst accum⟩

/-! ### The command presented (R54, R72, R74, R75) -/

/-- At a supported width ENCODE of a `W`-bit value gives the chip after the encoder's operation. -/
theorem exec_encode_eq {v : Nat} (supported : c.supported = true) (fits : v < 2 ^ c.W) :
    exec (.encode v) ⟨c, m⟩ = .next ⟨c, (m.presentCommand (BitVec.ofNat c.W v)).afterEnc⟩ := by
  rw [exec_encode_of_lt fits, encoderCycle_eq_exec]
  exact exec_encSelect _ supported

theorem Chip.presentCommand_encSelect_of_idle (rst : m.inputs.rst = false) (idle : m.enc.state = .idle)
    (v : BitVec c.W) : (m.presentCommand v).encSelect = .load := by
  simp [Chip.encSelect_eq, Chip.presentCommand, rst, idle]

/-- Settles O23: the command presented to an idle encoder selects ENC.LOAD. -/
theorem encodeCommandIsAcceptedWhenIdle : Obligations.EncodeCommandIsAcceptedWhenIdle := by
  intro c m v wide fits rst idle
  rw [exec_encode_eq ((Config.supported_iff c).2 wide) fits, Chip.afterEnc,
    Chip.presentCommand_encSelect_of_idle rst idle]
  rfl

theorem Chip.presentCommand_cmdTransfer_of_busy (busy : m.inputs.rst = true ∨ m.enc.state = .emit) (v : BitVec c.W) :
    (m.presentCommand v).cmdTransfer = false := by
  obtain reset | emitting := busy
  · simp [Chip.cmdTransfer, Chip.presentCommand, reset]
  · simp [Chip.cmdTransfer, Chip.presentCommand, cmdReady, emitting]

/-- Settles O24: the encoder's cycle with the command presented takes none while it is busy or reset, and the guard of
ENCODE stops a number that is no `W`-bit value. -/
theorem encodeCommandWaitsWhileBusy : Obligations.EncodeCommandWaitsWhileBusy := by
  intro c m v wide
  have supported := (Config.supported_iff c).2 wide
  refine ⟨fun fits busy => ⟨_, exec_encode_eq supported fits, ?_, ?_, ?_, ?_⟩, fun tooWide => ?_⟩
  · rw [Chip.afterEnc_cmd, Chip.presentCommand_cmdTransfer_of_busy busy]
    exact List.append_nil _
  · obtain ⟨-, dec, -, -, -⟩ := (m.presentCommand (BitVec.ofNat c.W v)).afterEnc_frame
    exact dec
  · rw [Chip.afterEnc_enc]
    cases reset : m.inputs.rst
    · simp [Chip.presentCommand, reset, busy.resolve_left (by simp [reset])]
    · simp [Chip.presentCommand, reset]
  · rw [Chip.afterEnc_out]
    cases reset : m.inputs.rst
    · simp [Chip.outTransfer, Chip.presentCommand, outValid, reset, busy.resolve_left (by simp [reset])]
    · simp [Chip.outTransfer, Chip.presentCommand, reset]
  · simp [exec, execEncode, supported, tooWide]

end Sys2Proof.Machine
end

section
/-! ## Proofs, 30_encoding.md: the placement of a word for the next step (log entry 15) -/

namespace Sys2Proof.Machine

variable {c : Config} {m : Chip c}

/-! ### What is placed -/

theorem decodeTableWord_of_decode {n w : Nat} {f : Format} {i : Instr} (format : tableFormat n w = f)
    (word : decode f w = .ok i) : decodeTableWord n w = some i := by
  rw [decodeTableWord, format, word]

theorem Chip.placeWord_es (w : BitVec 5) : m.placeWord 5 w.toNat = m.placeEs w := by
  have format : tableFormat 5 w.toNat = .es := rfl
  simp only [Chip.placeWord, decodeTableWord_of_decode format (decode_es_toNat w), format, BitVec.ofNat_toNat,
    BitVec.setWidth_eq]

theorem Chip.placeWord_ds (w : BitVec 6) : m.placeWord 6 w.toNat = m.placeDs w := by
  have format : tableFormat 6 w.toNat = .ds := rfl
  simp only [Chip.placeWord, decodeTableWord_of_decode format (decode_ds_toNat w), format, BitVec.ofNat_toNat,
    BitVec.setWidth_eq]

theorem Chip.placeWord_tok (w : BitVec 9) :
    m.placeWord 9 w.toNat = m.placeToken (w.getLsbD 8) (w.setWidth 8) := by
  have format : tableFormat 9 w.toNat = .tok := rfl
  simp only [Chip.placeWord, decodeTableWord_of_decode format (decode_tok_toNat w), format, BitVec.ofNat_toNat,
    BitVec.setWidth_eq]

/-- A token word is read by its end mark and its byte (R52). -/
theorem decodeTok_eq (w : BitVec 9) :
    decodeTok w =
      if w.getLsbD 8 then .tokEos else tokInstr (contBit (w.setWidth 8)) (groupOf (w.setWidth 8)) := by
  conv_lhs => rw [← tokWord_eq_append w, decodeTok_append]

theorem tableFormat_of_wide {n w : Nat} (wide : 16 < n) : tableFormat n w = .cmd n := by
  simp [tableFormat, show n ≠ 5 by omega, show n ≠ 6 by omega, show n ≠ 9 by omega, show n ≠ 8 by omega,
    show n ≠ 16 by omega]

theorem Chip.placeWord_cmd {v : Nat} (wide : 16 < c.W) (fits : v < 2 ^ c.W) :
    m.placeWord c.W v = m.placeCommand (BitVec.ofNat c.W v) := by
  have format := tableFormat_of_wide (w := v) wide
  have word : decode (.cmd c.W) v = .ok (.encode v) := decode_cmd (by omega) fits
  simp only [Chip.placeWord, decodeTableWord_of_decode format word, format, if_pos fits]

/-! ### The operation it selects -/

theorem fin_zero (signed : Bool) (W : Nat) : fin signed (0#W) = true := by
  rw [fin, nxt, shr7_zero, eq0_eq_true_iff]

/-- 128 has a 1 bit in the second group, which its sign copies when it is the top bit. -/
theorem fin_128 {W : Nat} (signed : Bool) (wide : 8 ≤ W) : fin signed (BitVec.ofNat W 128) = false := by
  have bit7 : (BitVec.ofNat W 128).getLsbD 7 = true := by
    rw [BitVec.getLsbD_ofNat, decide_eq_true (by omega)]
    decide
  have bit0 : (shr7 signed (BitVec.ofNat W 128)).getLsbD 0 = true := by
    cases signed
    · rw [shr7_unsigned_getLsbD, if_pos (by omega), bit7]
    · rw [shr7_signed_getLsbD _ (by omega), if_pos (by omega), bit7]
  rw [fin, nxt, eq0_eq_false_iff]
  intro zero
  simp [zero] at bit0

/-- Where the row reads `fin`, the placed register gives the word's `fin` bit. -/
theorem Chip.placeEs_fin (wide : 8 ≤ c.W) {w : BitVec 5} (readsFin : decodeEs w = .emit ∨ decodeEs w = .emitl) :
    fin c.signed (m.placeEs w).enc.rem = w.getLsbD 0 := by
  have rem : (m.placeEs w).enc.rem =
      if (decodeEs w = .emit ∨ decodeEs w = .emitl) ∧ fin c.signed m.enc.rem ≠ w.getLsbD 0 then
        (if w.getLsbD 0 then 0#c.W else BitVec.ofNat c.W 128) else m.enc.rem := rfl
  rw [rem]
  split
  · cases w.getLsbD 0
    · exact fin_128 c.signed wide
    · exact fin_zero c.signed c.W
  · next kept => exact not_not.1 fun differ => kept ⟨readsFin, differ⟩

/-- A placed ES word selects its operation (R58). -/
theorem Chip.placeEs_encSelect (wide : 8 ≤ c.W) (w : BitVec 5) : (m.placeEs w).encSelect = decodeEs w := by
  have state : (m.placeEs w).enc.state = if w.getLsbD 3 then .emit else .idle := rfl
  have rst : (m.placeEs w).inputs.rst = w.getLsbD 4 := rfl
  have valid : (m.placeEs w).inputs.cmdValid = w.getLsbD 2 := rfl
  have ready : (m.placeEs w).inputs.outReady = w.getLsbD 1 := rfl
  rw [Chip.encSelect_eq, state, rst, valid, ready]
  cases bit4 : w.getLsbD 4
  case true => simp only [decodeEs, bit4, if_true]
  cases bit3 : w.getLsbD 3
  case false => simp only [decodeEs, bit4, bit3, Bool.false_eq_true, if_false]
  cases bit1 : w.getLsbD 1
  case false => simp only [decodeEs, bit4, bit3, bit1, Bool.false_eq_true, if_true, if_false]
  have op : decodeEs w = if w.getLsbD 0 then .emitl else .emit := by
    simp only [decodeEs, bit4, bit3, bit1, Bool.false_eq_true, if_true, if_false]
  have readsFin : decodeEs w = .emit ∨ decodeEs w = .emitl := by
    rw [op]
    cases w.getLsbD 0 <;> simp
  rw [Chip.placeEs_fin wide readsFin, op]
  rfl

/-- A placed DS word selects its operation (R59). -/
theorem Chip.placeDs_decSelect (w : BitVec 6) : (m.placeDs w).decSelect = decodeDs w := by
  have state : (m.placeDs w).dec.state = if w.getLsbD 4 then .result else .accum := rfl
  have cont : contBit (m.placeDs w).inputs.inData = w.getLsbD 1 := contBit_byteOf _ _
  have rst : (m.placeDs w).inputs.rst = w.getLsbD 5 := rfl
  have valid : (m.placeDs w).inputs.inValid = w.getLsbD 3 := rfl
  have mark : (m.placeDs w).inputs.inEos = w.getLsbD 2 := rfl
  have ready : (m.placeDs w).inputs.resReady = w.getLsbD 0 := rfl
  rw [Chip.decSelect_eq, state, cont, rst, valid, mark, ready, decodeDs]
  cases w.getLsbD 5
  case true => rfl
  cases w.getLsbD 4 <;> rfl

/-- Settles O35: the placed ports and state bits are the ones the selection and the transfers read. -/
theorem placedWordIsTheNextOperation : Obligations.PlacedWordIsTheNextOperation := by
  intro c m n wide
  refine ⟨fun fits => ?_, fun fits => ?_, fun fits => ?_, fun fits wider => ?_⟩
  · obtain ⟨w, rfl⟩ := exists_word_of_lt fits
    rw [Chip.placeWord_es, Chip.placeEs_encSelect wide, decode_es_toNat]
  · obtain ⟨w, rfl⟩ := exists_word_of_lt fits
    rw [Chip.placeWord_ds, Chip.placeDs_decSelect, decode_ds_toNat]
  · obtain ⟨w, rfl⟩ := exists_word_of_lt fits
    rw [Chip.placeWord_tok]
    refine ⟨rfl, ?_⟩
    rw [decode_tok_toNat, decodeTok_eq]
    have read : tokRead (m.placeToken (w.getLsbD 8) (w.setWidth 8)).inputs =
        if w.getLsbD 8 then .eos else .byte (w.setWidth 8) := rfl
    rw [read]
    cases w.getLsbD 8 <;> rfl
  · rw [Chip.placeWord_cmd wider fits]
    exact ⟨rfl, rfl⟩

end Sys2Proof.Machine
end

section
/-! ## Proofs, 30_encoding.md: the pseudo-operation `ENCODE v` (R63, R76, R151) -/

namespace Sys2Proof.Machine

variable {c : Config} {m : Chip c} {rest : List (Stim c.W)}

/-! ### A cycle of a loaded script -/

@[simp] theorem Chip.load_enc (m : Chip c) (script : List (Stim c.W)) : (m.load script).enc = m.enc := rfl

@[simp] theorem Chip.load_dec (m : Chip c) (script : List (Stim c.W)) : (m.load script).dec = m.dec := rfl

@[simp] theorem Chip.load_env (m : Chip c) (script : List (Stim c.W)) : (m.load script).env = script := rfl

/-- A cycle of a loaded script: each agent's operation, and what is left of the script loaded. -/
theorem step_load (supported : c.supported = true) (script : List (Stim c.W)) :
    step ⟨c, m.load script⟩ =
      .next ⟨c, (m.load script).afterEnc.afterDec.load (advance (m.load script).transfers script)⟩ := by
  obtain ⟨-, -, envE, -, -⟩ := (m.load script).afterEnc_frame
  obtain ⟨-, -, envD, -, -⟩ := (m.load script).afterEnc.afterDec_frame
  rw [step_eq _ supported, Chip.endCycle, envD, envE, Chip.load_env]

theorem cycles_succ_of_step {n : Nat} {s t : State} (now : step s = .next t) : cycles (n + 1) s = cycles n t := by
  rw [cycles, now]

/-- A decoder with nothing presented and nothing taken does nothing (R94, R101). -/
theorem Chip.afterDec_of_quiet (rst : m.inputs.rst = false) (noToken : m.inputs.inValid = false)
    (notReady : m.inputs.resReady = false) : m.afterDec = m := by
  rw [Chip.afterDec, Chip.decSelect_eq, rst, noToken, notReady]
  cases m.dec.state <;> rfl

/-- A cycle of a script whose item leaves the decoder alone is the encoder's operation. -/
theorem step_load_encoder (supported : c.supported = true) {script : List (Stim c.W)}
    {p : Inputs c.W} (ports : (m.load script).inputs = p) (rst : p.rst = false) (noToken : p.inValid = false)
    (notReady : p.resReady = false) :
    step ⟨c, m.load script⟩ =
      .next ⟨c, (m.load script).afterEnc.load (advance (m.load script).transfers script)⟩ := by
  obtain ⟨inputs, -, -, -, -⟩ := (m.load script).afterEnc_frame
  subst ports
  rw [step_load supported, Chip.afterDec_of_quiet] <;> rwa [inputs]

/-! ### The two phases of `ENCODE v` -/

/-- `CMD v + TAKE` names the `cmd` ports and `out_ready` (R62). -/
theorem lineCmd_plus_lineTake {W : Nat} (v : BitVec W) :
    (lineCmd v).plus (lineTake W) = { Inputs.nop W with cmdValid := true, cmdValue := v, outReady := true } := by
  simp [lineCmd, lineTake, Inputs.plus, Inputs.nop]

/-- The first phase with an idle encoder: ENC.LOAD takes the command (R72). -/
theorem step_encode (supported : c.supported = true) (idle : m.enc.state = .idle) (v : BitVec c.W) :
    step ⟨c, m.load (.encode v :: rest)⟩ =
      .next ⟨c, ((m.cmdTaken v).setEnc { state := .emit, rem := v }).load (.collect :: rest)⟩ := by
  have ports : (m.load (.encode v :: rest)).inputs =
      { Inputs.nop c.W with cmdValid := true, cmdValue := v, outReady := true } := lineCmd_plus_lineTake v
  have select : (m.load (.encode v :: rest)).encSelect = .load := by
    rw [Chip.encSelect_eq, ports, Chip.load_enc, idle]
    rfl
  have taken : (m.load (.encode v :: rest)).transfers.cmd = true := (Chip.encSelect_eq_load_iff _).1 select
  rw [step_load_encoder supported ports rfl rfl rfl, Chip.afterEnc, select,
    advance, if_pos taken, ports]
  rfl

/-- The second phase: ENC.EMIT delivers the byte offered, and the phase goes on (R74). -/
theorem step_collect_of_not_fin (supported : c.supported = true) {rem : BitVec c.W}
    (enc : m.enc = { state := .emit, rem := rem }) (more : fin c.signed rem = false) :
    step ⟨c, m.load (.collect :: rest)⟩ =
      .next ⟨c, ((m.byteWrite (byteOf (cont c.signed rem) (low7 rem)) false).setEnc
        { state := .emit, rem := shr7 c.signed rem }).load (.collect :: rest)⟩ := by
  have select : (m.load (.collect :: rest)).encSelect = .emit := by
    simp only [Chip.encSelect_eq, Chip.load_enc, enc, more]
    rfl
  have notLast : (m.load (.collect :: rest)).transfers.last = false := by
    rw [Chip.transfers, outLast, Chip.load_enc, enc, more]
  rw [step_load_encoder supported rfl rfl rfl rfl, Chip.afterEnc, select, advance, notLast, Bool.and_false,
    Chip.load_enc, enc]
  rfl

/-- The second phase ends: ENC.EMITL delivers the last byte (R75). -/
theorem step_collect_of_fin (supported : c.supported = true) {rem : BitVec c.W}
    (enc : m.enc = { state := .emit, rem := rem }) (last : fin c.signed rem = true) :
    step ⟨c, m.load (.collect :: rest)⟩ =
      .next ⟨c, ((m.byteWrite (byteOf (cont c.signed rem) (low7 rem)) true).setEnc
        { state := .idle, rem := 0#c.W }).load rest⟩ := by
  have select : (m.load (.collect :: rest)).encSelect = .emitl := by
    simp only [Chip.encSelect_eq, Chip.load_enc, enc, last]
    rfl
  have isLast : (m.load (.collect :: rest)).transfers.last = true := by
    rw [Chip.transfers, outLast, Chip.load_enc, enc, last]
  have taken : (m.load (.collect :: rest)).transfers.out = true :=
    (Chip.outTransfer_iff _).2 ⟨by rw [Chip.load_enc, enc], rfl, Bool.false_ne_true⟩
  rw [step_load_encoder supported rfl rfl rfl rfl, Chip.afterEnc, select, advance, isLast, taken, Chip.load_enc, enc,
    cont_of_fin last, ← shr7_of_fin last]
  rfl

/-! ### The whole of `ENCODE v` -/

theorem encodePairs_succ_of_fin {W : Nat} {signed : Bool} {rem : BitVec W} (last : fin signed rem = true) (k : Nat) :
    encodePairs signed (k + 1) rem = [(byteOf (cont signed rem) (low7 rem), true)] := by
  have zero : eq0 (shr7 signed rem) = true := last
  simp only [encodePairs, zero, if_true]
  rfl

theorem encodePairs_succ_of_not_fin {W : Nat} {signed : Bool} {rem : BitVec W} (more : fin signed rem = false)
    (k : Nat) :
    encodePairs signed (k + 1) rem =
      (byteOf (cont signed rem) (low7 rem), false) :: encodePairs signed k (shr7 signed rem) := by
  have nonzero : eq0 (shr7 signed rem) = false := more
  simp only [encodePairs, nonzero, Bool.false_eq_true, if_false]
  rfl

/-- A value whose encoding ends is shifted as an unsigned one. -/
theorem encodes.shr7_eq {v : BitVec c.W} (ends : encodes c v) : shr7 c.signed v = shr7 false v := by
  cases signed : c.signed
  · rfl
  · exact shr7_of_msb_false true (ends signed)

theorem encodes_shr7 {v : BitVec c.W} (ends : encodes c v) : encodes c (shr7 c.signed v) := by
  intro signed
  have kept := shr7_signed_iterate_msb v 1
  rw [signed]
  exact kept.trans (ends signed)

/-- Of a value whose encoding ends, a byte that is not the last leaves one group fewer to come (R74). -/
theorem encodes.doneWithin_shr7 {k : Nat} {v : BitVec c.W} (ends : encodes c v) (more : fin c.signed v = false)
    (fits : Encoder.DoneWithin (k + 1) { state := .emit, rem := v }) :
    Encoder.DoneWithin k { state := .emit, rem := shr7 c.signed v } := by
  rw [fin, nxt, ends.shr7_eq] at more
  rw [ends.shr7_eq]
  exact Encoder.doneWithin_shr7 (fits rfl).2 more

/-- Collecting what is left of a value, when it fits in `k` groups: its bytes, one a cycle. -/
theorem cycles_collect (supported : c.supported = true) (k : Nat) {rem : BitVec c.W}
    (enc : m.enc = { state := .emit, rem := rem }) (ends : encodes c rem)
    (fits : Encoder.DoneWithin k { state := .emit, rem := rem }) :
    cycles (encodePairs c.signed k rem).length ⟨c, m.load (.collect :: rest)⟩ =
      .next ⟨c, Chip.load rest { m with
        enc := { state := .idle, rem := 0#c.W }
        chan := { m.chan with out := m.chan.out ++ encodePairs c.signed k rem } }⟩ := by
  induction k generalizing m rem with
  | zero => exact absurd (fits rfl).1 (lt_irrefl 0)
  | succ k ih =>
    cases last : fin c.signed rem
    · rw [encodePairs_succ_of_not_fin last, List.length_cons,
        cycles_succ_of_step (step_collect_of_not_fin supported enc last)]
      refine (ih rfl (encodes_shr7 ends) (ends.doneWithin_shr7 last fits)).trans ?_
      simp
    · rw [encodePairs_succ_of_fin last, List.length_singleton,
        cycles_succ_of_step (step_collect_of_fin supported enc last)]
      rfl

/-- `ENCODE v` with an idle encoder: the loading cycle, then a cycle for each byte of `encode_ref(v)`; nothing else
changes, and the rest of the script is loaded. -/
theorem cycles_encode (supported : c.supported = true) (idle : m.enc.state = .idle) {v : BitVec c.W}
    (ends : encodes c v) :
    cycles (1 + (encodeRef c v).length) ⟨c, m.load (.encode v :: rest)⟩ =
      .next ⟨c, Chip.load rest { m with
        enc := { state := .idle, rem := 0#c.W }
        chan := { m.chan with cmd := m.chan.cmd ++ [v], out := m.chan.out ++ encodeRef c v } }⟩ := by
  have wide := (Config.supported_iff c).1 supported
  rw [Nat.add_comm, cycles_succ_of_step (step_encode supported idle v)]
  exact cycles_collect supported (ng c.W) rfl ends (Encoder.doneWithin_ng (by omega) _)

/-- Settles O52: the loading cycle, then the bytes of a value of at most `NG` groups. -/
theorem encodeProgramDeliversEncodeRef : Obligations.EncodeProgramDeliversEncodeRef := by
  intro c m v rest wide ends idle
  exact ⟨_, cycles_encode ((Config.supported_iff c).2 wide) idle ends, rfl, rfl, rfl, rfl⟩

end Sys2Proof.Machine
end

section
/-! ## Proofs, 30_encoding.md: the pseudo-operation `DECODE bytes` (R63, R102, R151) -/

namespace Sys2Proof.Machine

variable {c : Config} {m : Chip c} {rest : List (Stim c.W)}

/-! ### A cycle of `DECODE` -/

/-- An encoder with no command presented and no byte taken does nothing (R71, R73). -/
theorem Chip.afterEnc_of_quiet (rst : m.inputs.rst = false) (noCommand : m.inputs.cmdValid = false)
    (notReady : m.inputs.outReady = false) : m.afterEnc = m := by
  rw [Chip.afterEnc, Chip.encSelect_eq, rst, noCommand, notReady]
  cases m.enc.state <;> rfl

/-- A cycle of a script whose item leaves the encoder alone is the decoder's operation. -/
theorem step_load_decoder (supported : c.supported = true) {script : List (Stim c.W)}
    {p : Inputs c.W} (ports : (m.load script).inputs = p) (rst : p.rst = false) (noCommand : p.cmdValid = false)
    (notReady : p.outReady = false) :
    step ⟨c, m.load script⟩ =
      .next ⟨c, (m.load script).afterDec.load (advance (m.load script).transfers script)⟩ := by
  subst ports
  rw [step_load supported, Chip.afterEnc_of_quiet rst noCommand notReady]

/-- While no result is offered `DECODE` presents its next byte (R63). -/
theorem Chip.load_decode_cons_inputs (accum : m.dec.state = .accum) (b : Byte) (bytes : List Byte) :
    (m.load (.decode (b :: bytes) :: rest)).inputs = lineByte c.W b :=
  if_neg (by simp [resValid, accum])

/-- While no result is offered `DECODE` with no byte left presents the end mark (R63). -/
theorem Chip.load_decode_nil_inputs (accum : m.dec.state = .accum) :
    (m.load (.decode [] :: rest)).inputs = lineEos c.W :=
  if_neg (by simp [resValid, accum])

/-- While a result is offered `DECODE` acknowledges it (R63). -/
theorem Chip.load_decode_inputs (result : m.dec.state = .result) (bytes : List Byte) :
    (m.load (.decode bytes :: rest)).inputs = lineAck c.W :=
  if_pos ((resValid_iff m.dec).2 result)

/-- `DECODE` with a decoder that accepts tokens: its next token is transferred, and the tokens after it are left. -/
theorem advance_decode_of_accum (accum : m.dec.state = .accum) (bytes : List Byte) :
    advance (m.load (.decode bytes :: rest)).transfers (.decode bytes :: rest) = .decode bytes.tail :: rest := by
  have noResult : (m.load (.decode bytes :: rest)).transfers.res = false := by
    simp [Chip.transfers, Chip.resTransfer, resValid, accum]
  have taken : (m.load (.decode bytes :: rest)).transfers.tok = true := by
    refine (Chip.tokTransfer_iff _).2 ?_
    cases bytes
    · rw [Chip.load_decode_nil_inputs accum]
      exact ⟨rfl, accum, Bool.false_ne_true⟩
    · rw [Chip.load_decode_cons_inputs accum]
      exact ⟨rfl, accum, Bool.false_ne_true⟩
  simp only [advance, noResult, taken, Bool.false_eq_true, if_false, if_true]

/-- DEC.CONT takes a continuation byte (R96). -/
theorem step_decode_cont (supported : c.supported = true) (accum : m.dec.state = .accum) {b : Byte} {bytes : List Byte}
    (more : contBit b = true) :
    step ⟨c, m.load (.decode (b :: bytes) :: rest)⟩ =
      .next ⟨c, ((m.tokTaken (.byte b)).setDec
        { m.dec with
          acc := m.dec.acc ||| place c.W (groupOf b) m.dec.idx.val
          ovf := m.dec.ovf || drop c.W (groupOf b) m.dec.idx.val
          idx := satIncr m.dec.idx }).load (.decode bytes :: rest)⟩ := by
  have ports := m.load_decode_cons_inputs (rest := rest) accum b bytes
  have select : (m.load (.decode (b :: bytes) :: rest)).decSelect = .cont := by
    rw [Chip.decSelect_eq, ports, Chip.load_dec, accum]
    simp [lineByte, Inputs.nop, more]
  rw [step_load_decoder supported ports rfl rfl rfl, Chip.afterDec, select,
    advance_decode_of_accum accum, ports]
  rfl

/-- DEC.TERM takes a terminating byte (R97). -/
theorem step_decode_term (supported : c.supported = true) (accum : m.dec.state = .accum) {b : Byte} {bytes : List Byte}
    (last : contBit b = false) :
    step ⟨c, m.load (.decode (b :: bytes) :: rest)⟩ =
      .next ⟨c, ((m.tokTaken (.byte b)).setDec
        { m.dec with
          acc := m.dec.acc ||| place c.W (groupOf b) m.dec.idx.val
          ovf := m.dec.ovf || drop c.W (groupOf b) m.dec.idx.val
          state := .result }).load (.decode bytes :: rest)⟩ := by
  have ports := m.load_decode_cons_inputs (rest := rest) accum b bytes
  have select : (m.load (.decode (b :: bytes) :: rest)).decSelect = .term := by
    rw [Chip.decSelect_eq, ports, Chip.load_dec, accum]
    simp [lineByte, Inputs.nop, last]
  rw [step_load_decoder supported ports rfl rfl rfl, Chip.afterDec, select,
    advance_decode_of_accum accum, ports]
  rfl

/-- DEC.EOS takes the end mark after the last byte (R98). -/
theorem step_decode_eos (supported : c.supported = true) (accum : m.dec.state = .accum) :
    step ⟨c, m.load (.decode [] :: rest)⟩ =
      .next ⟨c, ((m.tokTaken .eos).setDec (raiseTruncatedInput m.dec)).load (.decode [] :: rest)⟩ := by
  have ports := m.load_decode_nil_inputs (rest := rest) accum
  have select : (m.load (.decode [] :: rest)).decSelect = .eos := by
    rw [Chip.decSelect_eq, ports, Chip.load_dec, accum]
    rfl
  rw [step_load_decoder supported ports rfl rfl rfl, Chip.afterDec, select,
    advance_decode_of_accum accum, ports]
  rfl

/-- DEC.RETIRE delivers the result, and `DECODE` is over (R99). -/
theorem step_decode_retire (supported : c.supported = true) (result : m.dec.state = .result) (bytes : List Byte) :
    step ⟨c, m.load (.decode bytes :: rest)⟩ =
      .next ⟨c, ((m.resWrite (resOffered m.dec)).setDec (Decoder.atReset c.W)).load rest⟩ := by
  have ports := m.load_decode_inputs (rest := rest) result bytes
  have select : (m.load (.decode bytes :: rest)).decSelect = .retire := by
    rw [Chip.decSelect_eq, ports, Chip.load_dec, result]
    rfl
  have taken : (m.load (.decode bytes :: rest)).transfers.res = true := by
    refine (Chip.resTransfer_iff _).2 ⟨result, ?_⟩
    rw [ports]
    exact ⟨rfl, Bool.false_ne_true⟩
  rw [step_load_decoder supported ports rfl rfl rfl, Chip.afterDec, select,
    advance, if_pos taken]
  rfl

/-! ### The whole of `DECODE bytes` -/

/-- The tokens a decode that starts on these bytes takes: the bytes up to the terminating one, or all of them and the
end mark (R102). -/
def tokensOf : List Byte → List Token
  | [] => [.eos]
  | b :: bytes => .byte b :: if contBit b then tokensOf bytes else []

/-- The tokens taken are the bytes `decode_ref` consumes, or all of them and the end mark (R90). -/
theorem tokensOf_eq {W : Nat} (bytes : List Byte) (i : Nat) (acc : BitVec W) (ovf : Bool) :
    (∃ value ovf' n, decodeFrom i acc ovf bytes = .ok value ovf' (i + n) ∧ n ≤ bytes.length ∧
      tokensOf bytes = (bytes.take n).map .byte) ∨
    (decodeFrom i acc ovf bytes = .truncated ∧ tokensOf bytes = bytes.map .byte ++ [.eos]) := by
  induction bytes generalizing i acc ovf with
  | nil => exact .inr ⟨rfl, rfl⟩
  | cons b bytes ih =>
    rw [decodeFrom, tokensOf]
    cases contBit b
    · exact .inl ⟨_, _, 1, rfl, by simp, rfl⟩
    · obtain ⟨value, ovf', n, consumed, le, tokens⟩ | ⟨truncated, tokens⟩ :=
        ih (i + 1) (acc ||| place W (groupOf b) i) (ovf || drop W (groupOf b) i)
      · refine .inl ⟨value, ovf', n + 1, ?_, Nat.succ_le_succ le, congrArg _ tokens⟩
        rw [if_pos rfl, consumed, Nat.add_assoc, Nat.add_comm 1 n]
      · exact .inr ⟨truncated, congrArg _ tokens⟩

/-- `DECODE bytes` with a decoder in `ACCUM` at position `i`, which `dec_idx` holds saturated (R14): a cycle for each
token, then one for the result; nothing else changes, and the rest of the script is loaded. -/
theorem cycles_decode (supported : c.supported = true) {bytes : List Byte} {i : Nat} (accum : m.dec.state = .accum)
    (noError : m.dec.err = false) (position : m.dec.idx.val = min i (ng c.W)) :
    cycles ((tokensOf bytes).length + 1) ⟨c, m.load (.decode bytes :: rest)⟩ =
      .next ⟨c, Chip.load rest { m with
        dec := Decoder.atReset c.W
        chan := { m.chan with
          tok := m.chan.tok ++ tokensOf bytes
          res := m.chan.res ++ [(decodeFrom i m.dec.acc m.dec.ovf bytes).result] } }⟩ := by
  have wide := (Config.supported_iff c).1 supported
  induction bytes generalizing m i with
  | nil =>
    rw [tokensOf, List.length_singleton, cycles_succ_of_step (step_decode_eos supported accum),
      cycles_succ_of_step (step_decode_retire supported rfl [])]
    rfl
  | cons b bytes ih =>
    obtain ⟨placed, dropped, -⟩ := saturatedPositionLosesNothing c.W (groupOf b) i wide
    cases more : contBit b
    · simp only [tokensOf, more, Bool.false_eq_true, if_false, List.length_singleton, decodeFrom]
      rw [cycles_succ_of_step (step_decode_term supported accum more),
        cycles_succ_of_step (step_decode_retire supported rfl bytes), cycles]
      simp only [resOffered, Chip.setDec_dec, position, placed, dropped, noError]
      rfl
    · have nextPosition : (satIncr m.dec.idx).val = min (i + 1) (ng c.W) := by
        rw [satIncr_val, position]
        omega
      simp only [tokensOf, more, if_true, List.length_cons, decodeFrom]
      rw [cycles_succ_of_step (step_decode_cont supported accum more)]
      refine (ih (i := i + 1) ?_ ?_ ?_).trans ?_
      · exact accum
      · exact noError
      · exact nextPosition
      · simp [position, placed, dropped]

/-- Settles O53: the tokens taken are those of `decode_ref`, and an idle decoder is at position 0 with nothing
placed. -/
theorem decodeProgramDeliversDecodeRef : Obligations.DecodeProgramDeliversDecodeRef := by
  intro c m bytes rest wide idle
  have run := cycles_decode (m := m) (bytes := bytes) (rest := rest) (i := 0) ((Config.supported_iff c).2 wide)
    (by rw [idle]; rfl) (by rw [idle]; rfl) (by rw [idle]; exact (Nat.zero_min _).symm)
  rw [idle] at run
  refine ⟨(tokensOf bytes).length + 1, tokensOf bytes, _, ?_, run, rfl, rfl, rfl, rfl⟩
  obtain ⟨value, ovf, n, consumed, le, tokens⟩ | ⟨truncated, tokens⟩ := tokensOf_eq bytes 0 (0#c.W) false
  · rw [decodeRef, consumed, tokens, Nat.zero_add]
    simp [le]
  · rw [decodeRef, truncated, tokens]
    simp

end Sys2Proof.Machine
end

section
/-! ## Proofs, 40_encoder.md: the operations of a cycle without reset (R71 to R75) -/

namespace Sys2Proof.Machine

variable {c : Config} {m : Chip c}

/-! ### Which operation is selected (R58) -/

theorem Chip.encSelect_of_idle (rst : m.inputs.rst = false) (idle : m.enc.state = .idle) :
    m.encSelect = if m.inputs.cmdValid then .load else .idle := by
  rw [Chip.encSelect_eq, rst, idle]
  rfl

theorem Chip.encSelect_of_emit (rst : m.inputs.rst = false) (emit : m.enc.state = .emit) :
    m.encSelect = if m.inputs.outReady then (if fin c.signed m.enc.rem then .emitl else .emit) else .stall := by
  rw [Chip.encSelect_eq, rst, emit]
  rfl

/-! ### Idle (R71, R72) -/

/-- An idle encoder is ready for a command and offers no byte (R33). -/
theorem ports_of_idle {W : Nat} {e : Encoder W} (idle : e.state = .idle) :
    cmdReady e = true ∧ outValid e = false := by
  simp [cmdReady, outValid, idle]

/-- An encoder in `EMIT` offers a byte and is not ready for a command (R33). -/
theorem ports_of_emit {W : Nat} {e : Encoder W} (emit : e.state = .emit) :
    outValid e = true ∧ cmdReady e = false := by
  simp [cmdReady, outValid, emit]

/-- Settles O10: with no command an idle encoder selects ENC.IDLE. -/
theorem encIdleChangesNothing : Obligations.EncIdleChangesNothing := by
  intro c m wide rst idle noCommand
  have selected : m.encSelect = .idle := by rw [Chip.encSelect_of_idle rst idle, noCommand]; rfl
  exact ⟨encOperation_selected _ ((Config.supported_iff c).2 wide) selected, ports_of_idle idle⟩

/-- Settles O11: with a command an idle encoder selects ENC.LOAD. -/
theorem encLoadTakesTheCommand : Obligations.EncLoadTakesTheCommand := by
  intro c m wide rst idle command
  have selected : m.encSelect = .load := by rw [Chip.encSelect_of_idle rst idle, command]; rfl
  exact ⟨encOperation_selected _ ((Config.supported_iff c).2 wide) selected, m.encSelect_eq_load_iff.1 selected,
    (ports_of_idle idle).2⟩

/-! ### Emitting (R73, R74, R75) -/

/-- Settles O12: with `out_ready = 0` an encoder in `EMIT` selects ENC.STALL. -/
theorem encStallChangesNothing : Obligations.EncStallChangesNothing := by
  intro c m wide rst emit notReady
  have selected : m.encSelect = .stall := by rw [Chip.encSelect_of_emit rst emit, notReady]; rfl
  exact ⟨encOperation_selected _ ((Config.supported_iff c).2 wide) selected, ports_of_emit emit⟩

theorem Chip.outTransfer_of_emit (rst : m.inputs.rst = false) (emit : m.enc.state = .emit)
    (ready : m.inputs.outReady = true) : m.outTransfer = true :=
  m.outTransfer_iff.2 ⟨emit, ready, by simp [rst]⟩

theorem Chip.cmdTransfer_of_emit (emit : m.enc.state = .emit) : m.cmdTransfer = false := by
  simp [Chip.cmdTransfer, ports_of_emit emit]

/-- Settles O13: with a nonzero `nxt` ENC.EMIT is selected, and `cont` compares that `nxt` with 0. -/
theorem encEmitDeliversOneByte : Obligations.EncEmitDeliversOneByte := by
  intro c m wide rst emit ready more
  have selected : m.encSelect = .emit := by rw [Chip.encSelect_of_emit rst emit, ready, more]; rfl
  refine ⟨?_, Chip.outTransfer_of_emit rst emit ready, fun unsigned => ?_, fun signed negative => ?_⟩
  · rw [← emit]
    exact encOperation_selected (s := ⟨c, m⟩) _ ((Config.supported_iff c).2 wide) selected
  · rw [unsigned] at more ⊢
    rw [gt0_unsigned, Bool.not_eq_true']
    exact more
  · rw [signed] at negative ⊢
    exact gt0_signed_of_msb_true negative

/-- The sign bit stays where it is, so with `SIGNED = 1` no byte of a negative value is the last one (R77). -/
theorem fin_of_negative {W : Nat} {x : BitVec W} (negative : x.msb = true) : fin true x = false :=
  (eq0_eq_false_iff _).2 (shr7_signed_iterate_ne_zero negative 1)

theorem encodes_of_fin {v : BitVec c.W} (last : fin c.signed v = true) : encodes c v := by
  intro signed
  rw [signed] at last
  rw [← Bool.not_eq_true]
  intro negative
  rw [fin_of_negative negative] at last
  exact Bool.false_ne_true last

/-- A value whose encoding ends is divided by 128 with each byte (R70). -/
theorem encodes.shr7_toNat {v : BitVec c.W} (ends : encodes c v) : (shr7 c.signed v).toNat = v.toNat / 2 ^ 7 := by
  rw [ends.shr7_eq, shr7_unsigned_toNat]

/-- The byte offered is the last one exactly when one group holds all that is left. -/
theorem encodes.fin_iff {v : BitVec c.W} (ends : encodes c v) : fin c.signed v = true ↔ v.toNat < 2 ^ 7 := by
  rw [fin, nxt, eq0_eq_true_iff, BitVec.toNat_eq, ends.shr7_toNat, BitVec.toNat_ofNat, Nat.zero_mod,
    Nat.div_eq_zero_iff_lt (by decide)]

theorem low7_eq_setWidth {W : Nat} (x : BitVec W) : low7 x = x.setWidth 7 :=
  BitVec.eq_of_toNat_eq (by rw [low7_toNat, BitVec.toNat_setWidth])

theorem byteOf_false (g : Group) : byteOf false g = g.setWidth 8 := by
  revert g; decide

/-- The last byte is the low group, extended by a clear continuation bit (R75). -/
theorem outData_of_fin {W : Nat} {signed : Bool} {e : Encoder W} (last : fin signed e.rem = true) :
    outData signed e = (e.rem.setWidth 7).setWidth 8 := by
  rw [outData, cont_of_fin last, byteOf_false, low7_eq_setWidth]

/-- Settles O14: with `nxt = 0` ENC.EMITL is selected, and `nxt` is what it leaves. -/
theorem encEmitlDeliversTheLastByte : Obligations.EncEmitlDeliversTheLastByte := by
  intro c m wide rst emit ready last
  have selected : m.encSelect = .emitl := by rw [Chip.encSelect_of_emit rst emit, ready, last]; rfl
  refine ⟨?_, Chip.outTransfer_of_emit rst emit ready, Chip.cmdTransfer_of_emit emit,
    (encodes_of_fin last).fin_iff.1 last, outData_of_fin last⟩
  rw [← low7_eq_setWidth, ← byteOf_false, ← shr7_of_fin last]
  exact encOperation_selected (s := ⟨c, m⟩) _ ((Config.supported_iff c).2 wide) selected

end Sys2Proof.Machine
end

section
/-! ## Proofs, 40_encoder.md: a negative value with `SIGNED = 1` (R77) -/

namespace Sys2Proof.Machine

variable {c : Config} {m t : Chip c}

theorem ceil_le_iff_of_seven (W k : Nat) : (W - 1 + 6) / 7 ≤ k ↔ W - 1 ≤ 7 * k := by omega

/-- Settles O3: `k` shifts are one shift by `7 * k`, which keeps the sign. -/
theorem negativeShiftsReachMinusOne : Obligations.NegativeShiftsReachMinusOne := fun W _ k _ negative =>
  ⟨shr7_signed_iterate_ne_zero negative k,
    fun enough => shr7_signed_iterate_eq_allOnes negative ((ceil_le_iff_of_seven W k).1 enough)⟩

/-- The first `n` bytes of the encoding of a negative value `v`, which has no last one. -/
def endlessBytes {W : Nat} (v : BitVec W) (n : Nat) : List Byte :=
  (List.range n).map fun k => byteOf false (low7 ((shr7 true)^[k] v))

@[simp] theorem endlessBytes_length {W : Nat} (v : BitVec W) (n : Nat) : (endlessBytes v n).length = n := by
  simp [endlessBytes]

theorem endlessBytes_succ {W : Nat} (v : BitVec W) (n : Nat) :
    endlessBytes v (n + 1) = endlessBytes v n ++ [byteOf false (low7 ((shr7 true)^[n] v))] := by
  simp [endlessBytes, List.range_succ]

theorem endlessBytes_getElem? {W : Nat} {v : BitVec W} {n k : Nat} {b : Byte}
    (entry : (endlessBytes v n)[k]? = some b) : b = byteOf false (low7 ((shr7 true)^[k] v)) := by
  obtain ⟨_, rfl⟩ := List.getElem?_eq_some_iff.1 entry
  simp [endlessBytes]

/-- All ones give the byte `0x7F` (R77). -/
theorem byteOf_low7_allOnes {W : Nat} (wide : 8 ≤ W) : byteOf false (low7 (BitVec.allOnes W)) = 0x7F#8 := by
  have group : low7 (BitVec.allOnes W) = BitVec.allOnes 7 := by
    refine BitVec.eq_of_getLsbD_eq fun k hk => ?_
    rw [low7_getLsbD _ _ hk, BitVec.getLsbD_allOnes, BitVec.getLsbD_allOnes, decide_eq_true hk,
      decide_eq_true (by omega)]
  rw [group]
  decide

/-- From byte `ceil((W-1)/7)` on every byte is `0x7F` (R77). -/
theorem eq_0x7F_of_mem_drop_endlessBytes {W n : Nat} {v : BitVec W} (wide : 8 ≤ W) (negative : v.msb = true)
    {b : Byte} (mem : b ∈ (endlessBytes v n).drop ((W - 1 + 6) / 7)) : b = 0x7F#8 := by
  obtain ⟨k, entry⟩ := List.mem_iff_getElem?.1 mem
  rw [List.getElem?_drop] at entry
  rw [endlessBytes_getElem? entry,
    shr7_signed_iterate_eq_allOnes negative ((ceil_le_iff_of_seven W _).1 (Nat.le_add_right _ k)),
    byteOf_low7_allOnes wide]

theorem contBit_of_mem_endlessBytes {W n : Nat} {v : BitVec W} {b : Byte} (mem : b ∈ endlessBytes v n) :
    contBit b = false := by
  obtain ⟨k, entry⟩ := List.mem_iff_getElem?.1 mem
  rw [endlessBytes_getElem? entry, contBit_byteOf]

/-! ### The encoding never ends -/

/-- An encoder that emits a negative value: what it holds after a cycle without reset, and the byte it delivers in it
(R73, R74). -/
theorem Chip.afterEnc_of_negative (signed : c.signed = true) (rst : m.inputs.rst = false) {rem : BitVec c.W}
    (enc : m.enc = { state := .emit, rem := rem }) (negative : rem.msb = true) :
    m.afterEnc.chan.cmd = m.chan.cmd ∧
      m.afterEnc.enc = { state := .emit, rem := if m.inputs.outReady then shr7 true rem else rem } ∧
      m.afterEnc.chan.out = m.chan.out ++ if m.inputs.outReady then [(byteOf false (low7 rem), false)] else [] := by
  have emit : m.enc.state = .emit := by rw [enc]
  have more := fin_of_negative negative
  have clear : cont true rem = false :=
    gt0_signed_of_msb_true ((shr7_signed_iterate_msb rem 1).trans negative)
  refine ⟨?_, ?_, ?_⟩
  · rw [Chip.afterEnc_cmd, Chip.cmdTransfer_of_emit emit]
    exact List.append_nil _
  · rw [Chip.afterEnc_enc, rst, enc, signed, more]
    cases m.inputs.outReady <;> rfl
  · rw [Chip.afterEnc_out, Chip.outTransfer, rst, enc, signed, outData, outLast, more, clear]
    cases m.inputs.outReady <;> rfl

/-- Through a run without reset, `n` bytes of a negative value leave it shifted `n` times and the encoder in `EMIT`. -/
theorem FreeRun.negative {n : Nat} (signed : c.signed = true) {v : BitVec c.W} (negative : v.msb = true)
    (enc : m.enc = { state := .emit, rem := v }) (run : FreeRun noReset n m t) :
    ∃ k, t.enc = { state := .emit, rem := (shr7 true)^[k] v } ∧ t.chan.cmd = m.chan.cmd ∧
      t.chan.out = m.chan.out ++ (endlessBytes v k).map (·, false) := by
  induction run with
  | start => exact ⟨0, enc, rfl, (List.append_nil _).symm⟩
  | @cycle n m u t p _ noRst now ih =>
    obtain ⟨k, encU, cmdU, outU⟩ := ih enc
    have stays : ((shr7 true)^[k] v).msb = true := (shr7_signed_iterate_msb v k).trans negative
    obtain ⟨encT, cmdT, outT⟩ := step_next_encoder now
    obtain ⟨cmd, rem, out⟩ := Chip.afterEnc_of_negative (m := u.setInputs p) signed noRst encU stays
    rw [encT, cmdT, outT, cmd, rem, out]
    refine ⟨if p.outReady then k + 1 else k, ?_, cmdU, ?_⟩
    · cases ready : p.outReady
      · simp [ready]
      · simp [ready, Function.iterate_succ_apply']
    · cases ready : p.outReady
      · simp [ready, outU]
      · simp [ready, outU, endlessBytes_succ]

/-- Settles O57: the bytes delivered are the first ones of the endless encoding, which O3 makes `0x7F` in the end. -/
theorem negativeEncodeNeverEnds : Obligations.NegativeEncodeNeverEnds := by
  intro c n m t wide signed emit negative run
  have enc : m.enc = { state := .emit, rem := m.enc.rem } := by rw [← emit]
  obtain ⟨k, encT, cmd, out⟩ := run.negative signed negative enc
  have stays : ((shr7 true)^[k] m.enc.rem).msb = true := (shr7_signed_iterate_msb _ k).trans negative
  rw [encT, signed]
  refine ⟨rfl, stays, fin_of_negative stays, cmd, endlessBytes m.enc.rem k, out, ?_, ?_, ?_, ?_, ?_⟩
  · rw [endlessBytes_length]
  · rw [endlessBytes_length]
    exact (negativeShiftsReachMinusOne c.W _ k wide negative).2
  · exact fun _ _ => endlessBytes_getElem?
  · exact fun _ => contBit_of_mem_endlessBytes
  · exact fun _ => eq_0x7F_of_mem_drop_endlessBytes wide negative

end Sys2Proof.Machine
end

section
/-! ## Proofs, 40_encoder.md: `encode_ref` (R51, R70, R78) -/

namespace Sys2Proof.Machine

variable {c : Config}

/-! ### The loop of `encode_ref` -/

/-- Of a value whose encoding ends, the byte offered has its continuation bit set exactly when it is not the last. -/
theorem encodes.cont_eq {v : BitVec c.W} (ends : encodes c v) : cont c.signed v = !fin c.signed v := by
  have shifted := encodes_shr7 ends
  rw [cont, fin, nxt]
  cases signed : c.signed
  · exact gt0_unsigned _
  · rw [signed] at shifted
    exact gt0_signed_of_msb_false (shifted signed)

/-- Induction along the loop: a value whose encoding ends is shifted until one group holds it. -/
theorem encodes.induction {motive : (v : BitVec c.W) → encodes c v → Prop}
    (last : ∀ v (ends : encodes c v), fin c.signed v = true → motive v ends)
    (more : ∀ v (ends : encodes c v), fin c.signed v = false → motive (shr7 c.signed v) (encodes_shr7 ends) →
      motive v ends) (v : BitVec c.W) (ends : encodes c v) : motive v ends := by
  cases final : fin c.signed v
  · have smaller : (shr7 c.signed v).toNat < v.toNat := by
      have large := (not_congr ends.fin_iff).1 (by simp [final])
      rw [ends.shr7_toNat]
      omega
    exact more v ends final (encodes.induction last more _ (encodes_shr7 ends))
  · exact last v ends final
termination_by v.toNat

/-- A value that fits in `k` groups gives all its bytes within `k` turns of the loop. -/
theorem encodes.encodePairs_succ {k : Nat} {v : BitVec c.W} (ends : encodes c v)
    (fits : Encoder.DoneWithin k { state := .emit, rem := v }) :
    encodePairs c.signed (k + 1) v = encodePairs c.signed k v := by
  induction k generalizing v with
  | zero => exact absurd (fits rfl).1 (lt_irrefl 0)
  | succ k ih =>
    cases last : fin c.signed v
    · rw [encodePairs_succ_of_not_fin last, encodePairs_succ_of_not_fin last,
        ih (encodes_shr7 ends) (ends.doneWithin_shr7 last fits)]
    · rw [encodePairs_succ_of_fin last, encodePairs_succ_of_fin last]

/-- The last turn of the loop (R70). -/
theorem encodeRef_of_fin (pos : 0 < c.W) {v : BitVec c.W} (last : fin c.signed v = true) :
    encodeRef c v = [(byteOf false (low7 v), true)] := by
  obtain ⟨k, groups⟩ := Nat.exists_eq_succ_of_ne_zero (ng_ne_zero pos)
  rw [encodeRef, groups, encodePairs_succ_of_fin last, cont_of_fin last]

/-- A turn of the loop that is not the last (R70). -/
theorem encodes.encodeRef_of_not_fin (pos : 0 < c.W) {v : BitVec c.W} (ends : encodes c v)
    (more : fin c.signed v = false) :
    encodeRef c v = (byteOf true (low7 v), false) :: encodeRef c (shr7 c.signed v) := by
  have fits := Encoder.doneWithin_ng pos { state := .emit, rem := v }
  obtain ⟨k, groups⟩ := Nat.exists_eq_succ_of_ne_zero (ng_ne_zero pos)
  rw [groups] at fits
  rw [encodeRef, encodeRef, groups, encodePairs_succ_of_not_fin more, ends.cont_eq, more,
    (encodes_shr7 ends).encodePairs_succ (ends.doneWithin_shr7 more fits)]
  rfl

/-! ### The length (R70, R78) -/

/-- `bit_length` is the least number of bits that hold the number. -/
theorem bitLength_le_iff (n k : Nat) : bitLength n ≤ k ↔ n < 2 ^ k := by
  unfold bitLength
  split
  · next zero => simp [zero]
  · next nonzero => rw [Nat.succ_le_iff, Nat.log2_lt nonzero]

theorem bitLength_div (n j : Nat) : bitLength (n / 2 ^ j) = bitLength n - j :=
  eq_of_forall_ge_iff fun k => by
    rw [bitLength_le_iff, Nat.sub_le_iff_le_add, bitLength_le_iff, Nat.div_lt_iff_lt_mul (Nat.two_pow_pos j),
      Nat.pow_add]

/-- R78 item 3: a value of `W` bits has at most `NG` bytes. -/
theorem encodedLength_le_ng {W : Nat} (pos : 0 < W) (v : BitVec W) : encodedLength v ≤ ng W := by
  have bits : bitLength v.toNat ≤ W := (bitLength_le_iff _ W).2 v.isLt
  unfold encodedLength ng
  omega

theorem encodes.encodedLength_of_fin {v : BitVec c.W} (ends : encodes c v) (last : fin c.signed v = true) :
    encodedLength v = 1 := by
  have bits := (bitLength_le_iff _ _).2 (ends.fin_iff.1 last)
  unfold encodedLength
  omega

/-- Each byte but the last takes seven bits off (R70). -/
theorem encodes.encodedLength_of_not_fin {v : BitVec c.W} (ends : encodes c v) (more : fin c.signed v = false) :
    encodedLength v = encodedLength (shr7 c.signed v) + 1 := by
  have bits := (not_congr (ends.fin_iff.trans (bitLength_le_iff _ _).symm)).1 (by simp [more])
  rw [encodedLength, encodedLength, ends.shr7_toNat, bitLength_div]
  omega

theorem encodedLength_pos {W : Nat} (v : BitVec W) : 0 < encodedLength v := Nat.one_pos.trans_le (le_max_left _ _)

theorem encodes.encodeRef_length (pos : 0 < c.W) {v : BitVec c.W} (ends : encodes c v) :
    (encodeRef c v).length = encodedLength v := by
  induction v, ends using encodes.induction with
  | last v ends last => rw [encodeRef_of_fin pos last, ends.encodedLength_of_fin last, List.length_singleton]
  | more v ends more ih =>
    rw [ends.encodeRef_of_not_fin pos more, ends.encodedLength_of_not_fin more, List.length_cons, ih]

/-! ### The bytes (R51, R56) -/

theorem byteOf_getLsbD (k : Bool) (g : Group) {j : Nat} (h : j < 7) : (byteOf k g).getLsbD j = g.getLsbD j := by
  rw [← groupOf_getLsbD _ h, groupOf_byteOf]

/-- Bit `j` of what is left after a shift is bit `j + 7` of the value. -/
theorem encodes.shr7_getLsbD {v : BitVec c.W} (ends : encodes c v) (j : Nat) :
    (shr7 c.signed v).getLsbD j = v.getLsbD (j + 7) := by
  rw [ends.shr7_eq, shr7_unsigned_getLsbD]
  split
  · rfl
  · rw [BitVec.getLsbD_of_ge v _ (by omega)]

/-- Pair `k` of `encode_ref(v)`: its mark, its continuation bit, and the seven bits of the value it carries. -/
theorem encodes.encodeRef_getElem? (pos : 0 < c.W) {v : BitVec c.W} (ends : encodes c v) {k : Nat} {b : Byte}
    {last : Bool} (entry : (encodeRef c v)[k]? = some (b, last)) :
    last = decide (k + 1 = encodedLength v) ∧ contBit b = !last ∧
      ∀ j : Nat, j < 7 → b.getLsbD j = v.getLsbD (7 * k + j) := by
  induction v, ends using encodes.induction generalizing k with
  | last v ends final =>
    rw [encodeRef_of_fin pos final, List.getElem?_singleton] at entry
    split at entry
    · next first =>
      obtain ⟨rfl, rfl⟩ := Prod.mk.inj (Option.some.inj entry)
      refine ⟨by simp [first, ends.encodedLength_of_fin final], contBit_byteOf _ _, fun j hj => ?_⟩
      rw [byteOf_getLsbD _ _ hj, low7_getLsbD _ _ hj, first, Nat.mul_zero, Nat.zero_add]
    · nomatch entry
  | more v ends more ih =>
    rw [ends.encodeRef_of_not_fin pos more] at entry
    rw [ends.encodedLength_of_not_fin more]
    cases k with
    | zero =>
      obtain ⟨rfl, rfl⟩ := Prod.mk.inj (Option.some.inj entry)
      have further := encodedLength_pos (shr7 c.signed v)
      refine ⟨(decide_eq_false (by omega)).symm, contBit_byteOf _ _, fun j hj => ?_⟩
      rw [byteOf_getLsbD _ _ hj, low7_getLsbD _ _ hj, Nat.mul_zero, Nat.zero_add]
    | succ k =>
      obtain ⟨mark, flag, bits⟩ := ih entry
      refine ⟨by simp [mark], flag, fun j hj => ?_⟩
      rw [bits j hj, ends.shr7_getLsbD, Nat.mul_succ, Nat.add_right_comm]

/-- Settles O55, along the loop: each turn but the last takes one group off. -/
theorem encodeRefIsMinimalAndOrdered : Obligations.EncodeRefIsMinimalAndOrdered := by
  intro c v wide ends
  have pos : 0 < c.W := by omega
  exact ⟨ends.encodeRef_length pos, encodedLength_le_ng pos v, fun _ _ _ => ends.encodeRef_getElem? pos⟩

end Sys2Proof.Machine
end

section
/-! ## Proofs, 40_encoder.md: the bytes delivered (R43, R44, R76) -/

namespace Sys2Proof.Machine

variable {c : Config} {m t : Chip c}

/-- If the encoder is emitting, the encoding of what it holds ends. -/
def Chip.EmitEnds {c : Config} (m : Chip c) : Prop := m.enc.state = .emit → encodes c m.enc.rem

theorem Chip.encoderOwes_of_idle (idle : m.enc.state = .idle) : m.encoderOwes = [] := if_neg (by simp [idle])

theorem Chip.encoderOwes_of_emit (emit : m.enc.state = .emit) : m.encoderOwes = encodeRef c m.enc.rem := if_pos emit

/-- What the encoder owes is a function of its registers. -/
theorem Chip.encoderOwes_congr (enc : t.enc = m.enc) : t.encoderOwes = m.encoderOwes := by
  rw [Chip.encoderOwes, enc, Chip.encoderOwes]

/-- The command taken in this cycle, if there is one. -/
def Chip.commandNow {c : Config} (m : Chip c) : List (BitVec c.W) := if m.cmdTransfer then [m.inputs.cmdValue] else []

/-- The encoder's operation keeps the account: the bytes delivered and owed after it are those delivered and owed before
it and those of the command it takes. The encoding of what it then holds ends. -/
def Chip.KeepsAccount {c : Config} (m : Chip c) : Prop :=
  m.afterEnc.EmitEnds ∧
    m.afterEnc.chan.out ++ m.afterEnc.encoderOwes =
      m.chan.out ++ m.encoderOwes ++ m.commandNow.flatMap (encodeRef c)

theorem Chip.keepsAccount_of_same (ends : m.EmitEnds) (same : m.afterEnc = m) (noCommand : m.cmdTransfer = false) :
    m.KeepsAccount := by
  rw [Chip.KeepsAccount, Chip.commandNow, noCommand, same]
  exact ⟨ends, (List.append_nil _).symm⟩

/-- ENC.LOAD: the command taken is owed (R72). -/
theorem Chip.keepsAccount_of_load (idle : m.enc.state = .idle) (transfer : m.cmdTransfer = true)
    (ends : encodes c m.inputs.cmdValue) : m.KeepsAccount := by
  have load : m.afterEnc = (m.cmdTaken m.inputs.cmdValue).setEnc { state := .emit, rem := m.inputs.cmdValue } := by
    rw [Chip.afterEnc, m.encSelect_eq_load_iff.2 transfer]
  rw [Chip.KeepsAccount, Chip.commandNow, transfer, load, Chip.encoderOwes_of_idle idle]
  exact ⟨fun _ => ends, by simp [Chip.encoderOwes]⟩

/-- ENC.EMIT: the first byte owed is delivered (R74). -/
theorem Chip.keepsAccount_of_emit (pos : 0 < c.W) (emit : m.enc.state = .emit) (ends : encodes c m.enc.rem)
    (selected : m.encSelect = .emit) (more : fin c.signed m.enc.rem = false) : m.KeepsAccount := by
  have after : m.afterEnc = (m.byteWrite (byteOf true (low7 m.enc.rem)) false).setEnc
      { state := .emit, rem := shr7 c.signed m.enc.rem } := by
    rw [Chip.afterEnc, selected, ends.cont_eq, more, ← emit]
    rfl
  rw [Chip.KeepsAccount, Chip.commandNow, Chip.cmdTransfer_of_emit emit, after, Chip.encoderOwes_of_emit emit,
    ends.encodeRef_of_not_fin pos more]
  exact ⟨fun _ => encodes_shr7 ends, by simp [Chip.encoderOwes]⟩

/-- ENC.EMITL: the last byte owed is delivered (R75). -/
theorem Chip.keepsAccount_of_emitl (pos : 0 < c.W) (emit : m.enc.state = .emit) (selected : m.encSelect = .emitl)
    (last : fin c.signed m.enc.rem = true) : m.KeepsAccount := by
  have after : m.afterEnc = (m.byteWrite (byteOf false (low7 m.enc.rem)) true).setEnc
      { state := .idle, rem := shr7 c.signed m.enc.rem } := by
    rw [Chip.afterEnc, selected]
    rfl
  rw [Chip.KeepsAccount, Chip.commandNow, Chip.cmdTransfer_of_emit emit, after, Chip.encoderOwes_of_emit emit,
    encodeRef_of_fin pos last]
  exact ⟨nofun, by simp [Chip.encoderOwes]⟩

/-- Every cycle without reset, stalls included, keeps the account (R76). -/
theorem Chip.keepsAccount (pos : 0 < c.W) (rst : m.inputs.rst = false) (ends : m.EmitEnds)
    (commands : ∀ v ∈ m.commandNow, encodes c v) : m.KeepsAccount := by
  cases state : m.enc.state
  case idle =>
    have selected := Chip.encSelect_of_idle rst state
    cases command : m.inputs.cmdValid <;> rw [command] at selected
    · exact Chip.keepsAccount_of_same ends (by rw [Chip.afterEnc, selected]; rfl) (by simp [Chip.cmdTransfer, command])
    · have transfer := m.encSelect_eq_load_iff.1 selected
      exact Chip.keepsAccount_of_load state transfer (commands _ (by simp [Chip.commandNow, transfer]))
  case emit =>
    have selected := Chip.encSelect_of_emit rst state
    cases ready : m.inputs.outReady <;> rw [ready] at selected
    · exact Chip.keepsAccount_of_same ends (by rw [Chip.afterEnc, selected]; rfl) (Chip.cmdTransfer_of_emit state)
    cases last : fin c.signed m.enc.rem <;> rw [last] at selected
    · exact Chip.keepsAccount_of_emit pos state (ends state) selected last
    · exact Chip.keepsAccount_of_emitl pos state selected last

/-- Along a run without reset the account is kept, and the encoding of what is held still ends. -/
theorem FreeRun.keepsAccount {n : Nat} (pos : 0 < c.W) (run : FreeRun noReset n m t) :
    ∃ vs : List (BitVec c.W), t.chan.cmd = m.chan.cmd ++ vs ∧
      (m.EmitEnds → (∀ v ∈ vs, encodes c v) →
        t.EmitEnds ∧ t.chan.out ++ t.encoderOwes = m.chan.out ++ m.encoderOwes ++ vs.flatMap (encodeRef c)) := by
  induction run with
  | start => exact ⟨[], (List.append_nil _).symm, fun ends _ => ⟨ends, (List.append_nil _).symm⟩⟩
  | @cycle n m u t p _ noRst now ih =>
    obtain ⟨vs, cmdU, accountU⟩ := ih
    obtain ⟨enc, cmd, out⟩ := step_next_encoder now
    refine ⟨vs ++ (u.setInputs p).commandNow, ?_, fun ends all => ?_⟩
    · rw [cmd, Chip.afterEnc_cmd, Chip.setInputs_chan, cmdU, List.append_assoc]
      rfl
    obtain ⟨allBefore, allNow⟩ := List.forall_mem_append.1 all
    obtain ⟨endsU, sumU⟩ := accountU ends allBefore
    obtain ⟨endsT, sumT⟩ := Chip.keepsAccount (m := u.setInputs p) pos noRst endsU allNow
    refine ⟨?_, ?_⟩
    · rw [Chip.EmitEnds, enc]
      exact endsT
    · rw [out, Chip.encoderOwes_congr enc, sumT, List.flatMap_append, ← List.append_assoc, ← sumU]
      rfl

/-- Settles O50: every cycle keeps the account of bytes delivered, bytes owed and commands taken. -/
theorem deliveredBytesAreTheEncodedCommands : Obligations.DeliveredBytesAreTheEncodedCommands := by
  intro c n m t wide run
  obtain ⟨vs, cmd, account⟩ := run.keepsAccount (by omega)
  exact ⟨vs, cmd, fun ends all => (account ends all).2⟩

end Sys2Proof.Machine
end

section
/-! ## Proofs, 40_encoder.md: decoding what was encoded (R78, R103) -/

namespace Sys2Proof.Machine

variable {c : Config}

/-- A group below a number that starts seven bits higher: their bits do not meet. -/
theorem full_or_shifted (g : Group) (i n : Nat) :
    full g i ||| n * 2 ^ (7 * (i + 1)) = (g.toNat + 2 ^ 7 * n) * 2 ^ (7 * i) := by
  have below : full g i < 2 ^ (7 * (i + 1)) := by
    rw [full, Nat.mul_succ, Nat.pow_add, Nat.mul_comm]
    exact Nat.mul_lt_mul_of_pos_left g.isLt (Nat.two_pow_pos _)
  rw [Nat.or_comm, Nat.mul_comm n, ← Nat.two_pow_add_eq_or_of_lt below n, full, Nat.mul_succ, Nat.pow_add]
  ring

/-- The value is its low group and what is left after it. -/
theorem encodes.low7_add_shr7 {v : BitVec c.W} (ends : encodes c v) :
    (low7 v).toNat + 2 ^ 7 * (shr7 c.signed v).toNat = v.toNat := by
  rw [low7_toNat, ends.shr7_toNat, Nat.mod_add_div]

/-- Decoding the bytes of a value from position `i` on places the value there, when it fits below bit `W`. -/
theorem encodes.decodeFrom_encodeRef (pos : 0 < c.W) {v : BitVec c.W} (ends : encodes c v) {i : Nat}
    (acc : BitVec c.W) (ovf : Bool) (fits : v.toNat * 2 ^ (7 * i) < 2 ^ c.W) :
    decodeFrom i acc ovf ((encodeRef c v).map (·.1)) =
      .ok (acc ||| BitVec.ofNat c.W (v.toNat * 2 ^ (7 * i))) ovf (i + (encodeRef c v).length) := by
  induction v, ends using encodes.induction generalizing i acc with
  | last v ends last =>
    have whole : full (low7 v) i = v.toNat * 2 ^ (7 * i) := by
      rw [full, low7_toNat, Nat.mod_eq_of_lt (ends.fin_iff.1 last)]
    have kept : drop c.W (low7 v) i = false := by simpa [drop, whole] using fits
    rw [encodeRef_of_fin pos last]
    simp [decodeFrom, kept, place, whole]
  | more v ends more ih =>
    have parts : full (low7 v) i ||| (shr7 c.signed v).toNat * 2 ^ (7 * (i + 1)) = v.toNat * 2 ^ (7 * i) := by
      rw [full_or_shifted, ends.low7_add_shr7]
    have kept : drop c.W (low7 v) i = false := by
      have le := parts ▸ Nat.left_le_or
      simpa [drop] using le.trans_lt fits
    have fitsLeft := (parts ▸ Nat.right_le_or).trans_lt fits
    have placed := ih (acc ||| place c.W (low7 v) i) fitsLeft
    rw [ends.encodeRef_of_not_fin pos more]
    simp only [List.map_cons, decodeFrom, groupOf_byteOf, contBit_byteOf, kept, Bool.or_false, if_true, placed]
    rw [BitVec.or_assoc, place, ← BitVec.ofNat_or, parts, List.length_cons, Nat.add_assoc, Nat.add_comm 1]

/-- Settles O54: at position 0 the value itself is placed. -/
theorem decodeRefOfEncodeRefIsTheValue : Obligations.DecodeRefOfEncodeRefIsTheValue := by
  intro c v wide ends
  have decoded := ends.decodeFrom_encodeRef (by omega) (i := 0) (0#c.W) false (by simpa using v.isLt)
  simpa [decodeRef] using decoded

/-! ### On the machine (R63, R102) -/

theorem cycles_add {a b : Nat} {s u : State} (first : cycles a s = .next u) : cycles (a + b) s = cycles b u := by
  induction a generalizing s with
  | zero =>
    cases first
    rw [Nat.zero_add]
  | succ a ih =>
    rw [cycles] at first
    split at first
    · next now => rw [Nat.succ_add, cycles_succ_of_step now, ih first]
    · nomatch first
    · nomatch first

/-- The decoder takes one token for each byte that `decode_ref` consumes. -/
theorem tokensOf_length_of_decodeRef {W : Nat} {bytes : List Byte} {value : BitVec W} {ovf : Bool} {used : Nat}
    (decoded : decodeRef W bytes = .ok value ovf used) : (tokensOf bytes).length = used := by
  obtain ⟨_, _, n, consumed, le, tokens⟩ | ⟨truncated, -⟩ := tokensOf_eq bytes 0 (0#W) false
  · obtain ⟨-, -, rfl⟩ := Decoded.ok.inj (decoded.symm.trans consumed)
    rw [tokens, List.length_map, List.length_take, Nat.min_eq_left le, Nat.zero_add]
  · nomatch decoded.symm.trans truncated

/-- Settles O58: `ENCODE v` leaves the decoder idle for `DECODE`, whose result is that of `decode_ref`. -/
theorem encodeThenDecodeReturnsTheValue : Obligations.EncodeThenDecodeReturnsTheValue := by
  intro c m v wide ends idle decIdle
  have supported := (Config.supported_iff c).2 wide
  have decoded := decodeRefOfEncodeRefIsTheValue c v wide ends
  have count : 2 * (encodeRef c v).length + 2 =
      1 + (encodeRef c v).length + ((tokensOf ((encodeRef c v).map (·.1))).length + 1) := by
    rw [tokensOf_length_of_decodeRef decoded]
    omega
  rw [count]
  refine ⟨_, (cycles_add (cycles_encode supported idle ends)).trans (cycles_decode (i := 0) supported ?_ ?_ ?_), ?_,
    rfl, rfl⟩ <;> rw [decIdle]
  · rfl
  · rfl
  · exact (Nat.zero_min _).symm
  · exact congrArg (fun d => m.chan.res ++ [Decoded.result d]) decoded

end Sys2Proof.Machine
end


section
/-! ## Proofs, 41_decoder.md: the operations of a cycle without reset (R94 to R101) -/

namespace Sys2Proof.Machine

variable {c : Config} {m : Chip c}

/-! ### Which operation is selected (R59) -/

theorem Chip.decSelect_of_accum (rst : m.inputs.rst = false) (accum : m.dec.state = .accum) :
    m.decSelect =
      if m.inputs.inValid then (if m.inputs.inEos then .eos else if contBit m.inputs.inData then .cont else .term)
      else .wait := by
  rw [Chip.decSelect_eq, rst, accum]
  rfl

theorem Chip.decSelect_of_result (rst : m.inputs.rst = false) (result : m.dec.state = .result) :
    m.decSelect = if m.inputs.resReady then .retire else .hold := by
  rw [Chip.decSelect_eq, rst, result]
  rfl

/-- A byte on the ports of a decoder that accepts it selects DEC.CONT or DEC.TERM by its continuation bit. -/
theorem Chip.decSelect_of_byte (rst : m.inputs.rst = false) (accum : m.dec.state = .accum)
    (valid : m.inputs.inValid = true) (noMark : m.inputs.inEos = false) :
    m.decSelect = if contBit m.inputs.inData then .cont else .term := by
  rw [Chip.decSelect_of_accum rst accum, valid, noMark]
  rfl

/-- An end mark on the ports of a decoder that accepts it selects DEC.EOS. -/
theorem Chip.decSelect_of_eos (rst : m.inputs.rst = false) (accum : m.dec.state = .accum)
    (valid : m.inputs.inValid = true) (mark : m.inputs.inEos = true) : m.decSelect = .eos := by
  rw [Chip.decSelect_of_accum rst accum, valid, mark]
  rfl

/-! ### What is on the ports (R31, R34, R36) -/

/-- A decoder in `ACCUM` is ready for a token and offers no result (R34). -/
theorem ports_of_accum {W : Nat} {d : Decoder W} (accum : d.state = .accum) :
    inReady d = true ∧ resValid d = false := by
  simp [inReady, resValid, accum]

/-- A decoder in `RESULT` offers a result and is not ready for a token (R34). -/
theorem ports_of_result {W : Nat} {d : Decoder W} (result : d.state = .result) :
    resValid d = true ∧ inReady d = false := by
  simp [inReady, resValid, result]

theorem Chip.tokTransfer_of_accum (rst : m.inputs.rst = false) (accum : m.dec.state = .accum)
    (valid : m.inputs.inValid = true) : m.tokTransfer = true :=
  m.tokTransfer_iff.2 ⟨valid, accum, by simp [rst]⟩

theorem Chip.tokTransfer_of_result (result : m.dec.state = .result) : m.tokTransfer = false := by
  simp [Chip.tokTransfer, ports_of_result result]

theorem Chip.resTransfer_of_accum (accum : m.dec.state = .accum) : m.resTransfer = false := by
  simp [Chip.resTransfer, ports_of_accum accum]

theorem Chip.resTransfer_of_result (rst : m.inputs.rst = false) (result : m.dec.state = .result)
    (ready : m.inputs.resReady = true) : m.resTransfer = true :=
  m.resTransfer_iff.2 ⟨result, ready, by simp [rst]⟩

theorem tokRead_of_byte {W : Nat} {p : Inputs W} (noMark : p.inEos = false) : tokRead p = .byte p.inData := by
  simp [tokRead, noMark]

theorem tokRead_of_eos {W : Nat} {p : Inputs W} (mark : p.inEos = true) : tokRead p = .eos := by
  simp [tokRead, mark]

/-! ### Accumulating (R94, R96 to R98) -/

/-- Settles O15: with no token a decoder in `ACCUM` selects DEC.WAIT. -/
theorem decWaitChangesNothing : Obligations.DecWaitChangesNothing := by
  intro c m wide rst accum noToken
  have selected : m.decSelect = .wait := by rw [Chip.decSelect_of_accum rst accum, noToken]; rfl
  exact ⟨decOperation_selected _ ((Config.supported_iff c).2 wide) selected, ports_of_accum accum⟩

/-- Settles O16: a set continuation bit selects DEC.CONT. -/
theorem decContPlacesTheGroup : Obligations.DecContPlacesTheGroup := by
  intro c m wide rst accum valid noMark more
  have selected : m.decSelect = .cont := (Chip.decSelect_of_byte rst accum valid noMark).trans (if_pos more)
  rw [← tokRead_of_byte noMark]
  exact ⟨_, decOperation_selected (s := ⟨c, m⟩) _ ((Config.supported_iff c).2 wide) selected, rfl, rfl,
    satIncr_val_eq_ite _, accum, rfl, Chip.tokTransfer_of_accum rst accum valid⟩

/-- Settles O17: a clear continuation bit selects DEC.TERM, and no result crosses while the decoder is in `ACCUM`. -/
theorem decTermEndsTheDecode : Obligations.DecTermEndsTheDecode := by
  intro c m wide rst accum valid noMark last
  have selected : m.decSelect = .term :=
    (Chip.decSelect_of_byte rst accum valid noMark).trans (if_neg (Bool.eq_false_iff.1 last))
  rw [← tokRead_of_byte noMark]
  exact ⟨_, decOperation_selected (s := ⟨c, m⟩) _ ((Config.supported_iff c).2 wide) selected, rfl, rfl, rfl, rfl, rfl,
    rfl, rfl, Chip.tokTransfer_of_accum rst accum valid, Chip.resTransfer_of_accum accum⟩

/-- Settles O18: an end mark selects DEC.EOS, which raises the exception. -/
theorem decEosRaisesTruncatedInput : Obligations.DecEosRaisesTruncatedInput := by
  intro c m wide rst accum valid mark
  have selected := Chip.decSelect_of_eos rst accum valid mark
  rw [← tokRead_of_eos mark]
  exact ⟨_, decOperation_selected (s := ⟨c, m⟩) _ ((Config.supported_iff c).2 wide) selected, rfl, rfl, rfl,
    Chip.tokTransfer_of_accum rst accum valid⟩

/-! ### Offering a result (R99, R101) -/

/-- Settles O19: with `res_ready = 0` a decoder in `RESULT` selects DEC.HOLD. -/
theorem decHoldChangesNothing : Obligations.DecHoldChangesNothing := by
  intro c m wide rst result notReady
  have selected : m.decSelect = .hold := by rw [Chip.decSelect_of_result rst result, notReady]; rfl
  exact ⟨decOperation_selected _ ((Config.supported_iff c).2 wide) selected, ports_of_result result⟩

/-- Settles O20: with `res_ready = 1` a decoder in `RESULT` selects DEC.RETIRE. -/
theorem decRetireDeliversTheResult : Obligations.DecRetireDeliversTheResult := by
  intro c m wide rst result ready
  have selected : m.decSelect = .retire := by rw [Chip.decSelect_of_result rst result, ready]; rfl
  exact ⟨decOperation_selected _ ((Config.supported_iff c).2 wide) selected,
    Chip.resTransfer_of_result rst result ready, Chip.tokTransfer_of_result result⟩

/-! ### A token that waits (R101, R125) -/

/-- Presenting a token drives the `in` ports only. -/
theorem Chip.presentToken_frame (m : Chip c) (tok : Token) :
    (m.presentToken tok).enc = m.enc ∧ (m.presentToken tok).dec = m.dec ∧ (m.presentToken tok).chan = m.chan ∧
      (m.presentToken tok).inputs.rst = m.inputs.rst ∧ (m.presentToken tok).inputs.resReady = m.inputs.resReady := by
  cases tok <;> exact ⟨rfl, rfl, rfl, rfl, rfl⟩

/-- Each token or byte instruction is the decoder's cycle with its token presented (R53, R50). -/
theorem exists_token_of_mem {i : Instr} {g : Group}
    (mem : i ∈ [Instr.tokCont g, .tokTerm g, .tokEos, .vbCont g, .vbTerm g]) :
    ∃ tok : Token, ∀ s, exec i s = tokenCycle tok s := by
  simp only [List.mem_cons, List.not_mem_nil, or_false] at mem
  obtain rfl | rfl | rfl | rfl | rfl := mem <;> exact ⟨_, fun _ => rfl⟩

/-- The decoder's cycle when it is reset or offers a result: no token is taken, and the result is held, or delivered,
or discarded by the reset. -/
theorem Chip.afterDec_of_busy (busy : m.inputs.rst = true ∨ m.dec.state = .result) :
    m.afterDec.chan.tok = m.chan.tok ∧
      m.afterDec.dec =
        (if m.inputs.rst = false ∧ m.inputs.resReady = false then m.dec else Decoder.atReset c.W) ∧
      m.afterDec.chan.res =
        (if m.inputs.rst = false ∧ m.inputs.resReady = true then m.chan.res ++ [resOffered m.dec] else m.chan.res) := by
  rw [Chip.afterDec_tok, Chip.afterDec_dec, Chip.afterDec_res]
  cases rst : m.inputs.rst
  case true => simp [Chip.tokTransfer, Chip.resTransfer, rst]
  have result : m.dec.state = .result := busy.resolve_left (by simp [rst])
  rw [Chip.tokTransfer_of_result result, result]
  cases ready : m.inputs.resReady <;> simp [Chip.resTransfer, rst, ready, ports_of_result result]

/-- Settles O22: presenting a token leaves the decoder busy, so its cycle takes none. -/
theorem tokensWaitWhileAResultIsOffered : Obligations.TokensWaitWhileAResultIsOffered := by
  intro c m g i wide mem busy
  obtain ⟨tok, meaning⟩ := exists_token_of_mem mem
  obtain ⟨enc, dec, chan, rst, resReady⟩ := m.presentToken_frame tok
  obtain ⟨-, encKept, -, cmdKept, outKept⟩ := (m.presentToken tok).afterDec_frame
  rw [← rst, ← dec] at busy
  obtain ⟨tok', dec', res'⟩ := Chip.afterDec_of_busy busy
  rw [rst, resReady, dec] at dec' res'
  rw [chan] at tok' res' cmdKept outKept
  exact ⟨_, (meaning _).trans (tokenCycle_eq ((Config.supported_iff c).2 wide) tok), tok', encKept.trans enc, cmdKept,
    outKept, dec', res'⟩

end Sys2Proof.Machine
end

section
/-! ## Proofs, 41_decoder.md: `decode_ref` (R51, R90) -/

namespace Sys2Proof.Machine

/-! ### Where the loop ends -/

theorem decodeFrom_cons_of_cont {W : Nat} {b : Byte} (more : contBit b = true) (i : Nat) (acc : BitVec W) (ovf : Bool)
    (bytes : List Byte) :
    decodeFrom i acc ovf (b :: bytes) =
      decodeFrom (i + 1) (acc ||| place W (groupOf b) i) (ovf || drop W (groupOf b) i) bytes :=
  if_pos more

theorem decodeFrom_cons_of_term {W : Nat} {b : Byte} (last : contBit b = false) (i : Nat) (acc : BitVec W) (ovf : Bool)
    (bytes : List Byte) :
    decodeFrom i acc ovf (b :: bytes) =
      .ok (acc ||| place W (groupOf b) i) (ovf || drop W (groupOf b) i) (i + 1) :=
  if_neg (by simp [last])

/-- With no terminating byte the loop runs out of bytes. -/
theorem decodeFrom_of_unterminated {W : Nat} {bytes : List Byte} (more : ∀ b ∈ bytes, contBit b = true) (i : Nat)
    (acc : BitVec W) (ovf : Bool) : decodeFrom i acc ovf bytes = .truncated := by
  induction bytes generalizing i acc ovf with
  | nil => rfl
  | cons b bytes ih =>
    obtain ⟨first, others⟩ := List.forall_mem_cons.1 more
    rw [decodeFrom_cons_of_cont first, ih others]

/-! ### The number spelled, placed at a position -/

/-- The bits of the first byte's group and those the other bytes spell do not meet. -/
theorem spelled_cons_shifted (b : Byte) (bytes : List Byte) (i : Nat) :
    spelled (b :: bytes) * 2 ^ (7 * i) = full (groupOf b) i ||| spelled bytes * 2 ^ (7 * (i + 1)) :=
  (full_or_shifted _ _ _).symm

theorem spelled_singleton_shifted (b : Byte) (i : Nat) : spelled [b] * 2 ^ (7 * i) = full (groupOf b) i := by
  simp [spelled, full]

/-- An OR reaches `2 ^ W` exactly when one side does. -/
theorem decide_two_pow_le_or (W a b : Nat) :
    decide (2 ^ W ≤ a ||| b) = (decide (2 ^ W ≤ a) || decide (2 ^ W ≤ b)) := by
  rw [← Bool.decide_or, decide_eq_decide]
  constructor
  · intro reaches
    by_contra below
    obtain ⟨belowA, belowB⟩ := not_or.1 below
    exact absurd (Nat.or_lt_two_pow (Nat.not_le.1 belowA) (Nat.not_le.1 belowB)) (Nat.not_lt.2 reaches)
  · rintro (reaches | reaches)
    · exact reaches.trans Nat.left_le_or
    · exact reaches.trans Nat.right_le_or

/-- The loop from position `i` on, up to the first terminating byte: the number spelled is placed there, and the flag
says whether it reaches bit `W`. -/
theorem decodeFrom_of_terminated {W : Nat} {front : List Byte} {last : Byte} (more : ∀ b ∈ front, contBit b = true)
    (terminating : contBit last = false) (rest : List Byte) (i : Nat) (acc : BitVec W) (ovf : Bool) :
    decodeFrom i acc ovf (front ++ last :: rest) =
      .ok (acc ||| BitVec.ofNat W (spelled (front ++ [last]) * 2 ^ (7 * i)))
        (ovf || decide (2 ^ W ≤ spelled (front ++ [last]) * 2 ^ (7 * i))) (i + (front.length + 1)) := by
  induction front generalizing i acc ovf with
  | nil =>
    rw [List.nil_append, decodeFrom_cons_of_term terminating, List.nil_append, spelled_singleton_shifted]
    rfl
  | cons b front ih =>
    obtain ⟨first, others⟩ := List.forall_mem_cons.1 more
    rw [List.cons_append, decodeFrom_cons_of_cont first, ih others, List.cons_append, spelled_cons_shifted,
      BitVec.ofNat_or, ← BitVec.or_assoc, decide_two_pow_le_or, ← Bool.or_assoc, List.length_cons, Nat.add_assoc i,
      Nat.add_comm 1]
    rfl

/-- Settles O56: a list has no terminating byte, or splits at its first one. -/
theorem decodeRefIsTheSpelledNumber : Obligations.DecodeRefIsTheSpelledNumber := by
  intro W bytes _
  cases first : bytes.find? (fun b => !contBit b) with
  | none =>
    have more : ∀ b ∈ bytes, contBit b = true := by simpa using first
    rw [decodeRef, decodeFrom_of_unterminated more]
    exact more
  | some last =>
    obtain ⟨terminating, front, rest, rfl, more⟩ := List.find?_eq_some_iff_append.1 first
    rw [Bool.not_eq_true'] at terminating
    have more : ∀ b ∈ front, contBit b = true := by simpa using more
    have before : (front ++ last :: rest).take front.length = front := List.take_left
    have consumed : (front ++ last :: rest).take (front.length + 1) = front ++ [last] := List.take_length_add_append 1
    have atLast : (front ++ last :: rest)[front.length]? = some last := by simp
    rw [decodeRef, decodeFrom_of_terminated more terminating, Nat.mul_zero, Nat.pow_zero, Nat.mul_one, Nat.zero_add,
      BitVec.zero_or, Bool.false_or]
    refine ⟨⟨last, atLast, terminating⟩, Nat.succ_pos _, ?_, ?_, ?_⟩
    · exact before.symm ▸ more
    · rw [consumed]
    · rw [consumed]

end Sys2Proof.Machine
end

section
/-! ## Proofs, 41_decoder.md: the results delivered (R43, R102, R104) -/

namespace Sys2Proof.Machine

variable {c : Config} {m t : Chip c}

/-! ### The decodes of a sequence of tokens -/

theorem decodesOf_append (W : Nat) (sofar : List Byte) (ts us : List Token) :
    decodesOf W sofar (ts ++ us) =
      ((decodesOf W sofar ts).1 ++ (decodesOf W (decodesOf W sofar ts).2 us).1,
        (decodesOf W (decodesOf W sofar ts).2 us).2) := by
  induction ts generalizing sofar with
  | nil => rfl
  | cons tok ts ih =>
    cases tok with
    | eos => simp [decodesOf, ih]
    | byte b => cases more : contBit b <;> simp [decodesOf, more, ih]

theorem decodesOf_cont (W : Nat) (sofar : List Byte) {b : Byte} (more : contBit b = true) :
    decodesOf W sofar [.byte b] = ([], sofar ++ [b]) :=
  if_pos more

theorem decodesOf_term (W : Nat) (sofar : List Byte) {b : Byte} (last : contBit b = false) :
    decodesOf W sofar [.byte b] = ([(decodeRef W (sofar ++ [b])).result], []) :=
  if_neg (by simp [last])

theorem decodesOf_eos (W : Nat) (sofar : List Byte) :
    decodesOf W sofar [.eos] = ([(decodeRef W sofar).result], []) := rfl

/-! ### The registers in mid-decode -/

/-- The registers hold what the loop of `decode_ref` has computed from the bytes `sofar`, the position saturated
(R14). -/
structure Decoder.HasPlaced {W : Nat} (d : Decoder W) (sofar : List Byte) : Prop where
  noError : d.err = false
  position : d.idx.val = min sofar.length (ng W)
  loop : ∀ rest, decodeRef W (sofar ++ rest) = decodeFrom sofar.length d.acc d.ovf rest

theorem Decoder.atReset_hasPlaced (W : Nat) : (Decoder.atReset W).HasPlaced [] where
  noError := rfl
  position := (Nat.zero_min _).symm
  loop _ := rfl

/-- At the saturated position a group goes where the loop places it (R14). -/
theorem Decoder.HasPlaced.accNext_eq {W : Nat} {d : Decoder W} {sofar : List Byte} (wide : 8 ≤ W)
    (placed : d.HasPlaced sofar) (g : Group) : accNext d g = d.acc ||| place W g sofar.length := by
  rw [accNext, placed.position, (saturatedPositionLosesNothing W g _ wide).1]

/-- At the saturated position a group drops what the loop drops (R14). -/
theorem Decoder.HasPlaced.ovfNext_eq {W : Nat} {d : Decoder W} {sofar : List Byte} (wide : 8 ≤ W)
    (placed : d.HasPlaced sofar) (g : Group) : ovfNext d g = (d.ovf || drop W g sofar.length) := by
  rw [ovfNext, placed.position, (saturatedPositionLosesNothing W g _ wide).2.1]

/-- DEC.CONT is a turn of the loop that is not the last (R96). -/
theorem Decoder.HasPlaced.cont {W : Nat} {d : Decoder W} {sofar : List Byte} (wide : 8 ≤ W)
    (placed : d.HasPlaced sofar) {b : Byte} (more : contBit b = true) :
    Decoder.HasPlaced
      { d with acc := accNext d (groupOf b), ovf := ovfNext d (groupOf b), idx := satIncr d.idx } (sofar ++ [b]) where
  noError := placed.noError
  position := by
    rw [satIncr_val, placed.position, List.length_append, List.length_singleton]
    omega
  loop rest := by
    rw [List.append_assoc, List.singleton_append, placed.loop, decodeFrom_cons_of_cont more, placed.accNext_eq wide,
      placed.ovfNext_eq wide, List.length_append, List.length_singleton]

/-- DEC.TERM is the last turn of the loop, and offers its result (R97). -/
theorem Decoder.HasPlaced.resOffered_of_term {W : Nat} {d : Decoder W} {sofar : List Byte} (wide : 8 ≤ W)
    (placed : d.HasPlaced sofar) {b : Byte} (last : contBit b = false) :
    resOffered { d with acc := accNext d (groupOf b), ovf := ovfNext d (groupOf b), state := .result } =
      (decodeRef W (sofar ++ [b])).result := by
  rw [placed.loop, decodeFrom_cons_of_term last, ← placed.accNext_eq wide, ← placed.ovfNext_eq wide, resOffered,
    placed.noError]
  rfl

/-- DEC.EOS finds the loop with no byte left, and offers its error (R98). -/
theorem Decoder.HasPlaced.resOffered_of_eos {W : Nat} {d : Decoder W} {sofar : List Byte}
    (placed : d.HasPlaced sofar) : resOffered (raiseTruncatedInput d) = (decodeRef W sofar).result := by
  have ended := placed.loop []
  rw [List.append_nil] at ended
  rw [ended]
  rfl

/-- In `ACCUM` the decoder has placed the bytes of the decode in progress; while it offers a result no decode is in
progress. -/
structure Decoder.Tracks {W : Nat} (d : Decoder W) (sofar : List Byte) : Prop where
  accum : d.state = .accum → d.HasPlaced sofar
  result : d.state = .result → sofar = []

theorem Decoder.tracks_of_accum {W : Nat} {d : Decoder W} {sofar : List Byte} (accum : d.state = .accum)
    (placed : d.HasPlaced sofar) : d.Tracks sofar :=
  ⟨fun _ => placed, fun result => by simp [accum] at result⟩

theorem Decoder.tracks_of_result {W : Nat} {d : Decoder W} (result : d.state = .result) : d.Tracks [] :=
  ⟨fun accum => by simp [result] at accum, fun _ => rfl⟩

/-! ### Every cycle keeps the account -/

theorem Chip.decoderOffers_of_accum (accum : m.dec.state = .accum) : m.decoderOffers = [] := if_neg (by simp [accum])

theorem Chip.decoderOffers_of_result (result : m.dec.state = .result) : m.decoderOffers = [resOffered m.dec] :=
  if_pos result

/-- What the decoder offers is a function of its registers. -/
theorem Chip.decoderOffers_congr (dec : t.dec = m.dec) : t.decoderOffers = m.decoderOffers := by
  rw [Chip.decoderOffers, dec, Chip.decoderOffers]

/-- The token taken in this cycle, if there is one. -/
def Chip.tokenNow {c : Config} (m : Chip c) : List Token := if m.tokTransfer then [tokRead m.inputs] else []

/-- The decoder's operation keeps the account: the results delivered and offered after it are those before it and those
of the decodes that end with the token it takes, and its registers track the decode then in progress. -/
def Chip.KeepsDecodes {c : Config} (m : Chip c) (sofar : List Byte) : Prop :=
  m.afterDec.dec.Tracks (decodesOf c.W sofar m.tokenNow).2 ∧
    m.afterDec.chan.res ++ m.afterDec.decoderOffers =
      m.chan.res ++ m.decoderOffers ++ (decodesOf c.W sofar m.tokenNow).1

variable {sofar : List Byte}

theorem Chip.keepsDecodes_of_same (tracks : m.dec.Tracks sofar) (same : m.afterDec = m)
    (noToken : m.tokTransfer = false) : m.KeepsDecodes sofar := by
  rw [Chip.KeepsDecodes, Chip.tokenNow, noToken, same]
  exact ⟨tracks, (List.append_nil _).symm⟩

/-- A cycle that takes a token, in terms of the token and of the registers it leaves. -/
theorem Chip.keepsDecodes_of_token (transfer : m.tokTransfer = true) {d : Decoder c.W}
    (after : m.afterDec = (m.tokTaken (tokRead m.inputs)).setDec d)
    (tracks : d.Tracks (decodesOf c.W sofar [tokRead m.inputs]).2)
    (offers : (m.setDec d).decoderOffers = (decodesOf c.W sofar [tokRead m.inputs]).1) : m.KeepsDecodes sofar := by
  obtain ⟨-, accum, -⟩ := m.tokTransfer_iff.1 transfer
  rw [Chip.KeepsDecodes, Chip.tokenNow, if_pos transfer, after, ← offers, Chip.decoderOffers_of_accum accum,
    List.append_nil]
  exact ⟨tracks, rfl⟩

/-- DEC.CONT: the byte joins the decode in progress (R96). -/
theorem Chip.keepsDecodes_of_cont (wide : 8 ≤ c.W) (accum : m.dec.state = .accum) (placed : m.dec.HasPlaced sofar)
    (selected : m.decSelect = .cont) (more : contBit m.inputs.inData = true) : m.KeepsDecodes sofar := by
  obtain ⟨transfer, noMark⟩ := Chip.tokTransfer_of_decSelect selected (.inl rfl)
  refine Chip.keepsDecodes_of_token transfer (by rw [Chip.afterDec, selected]) ?_ ?_ <;>
    rw [tokRead_of_byte (noMark nofun), decodesOf_cont _ _ more]
  · exact Decoder.tracks_of_accum accum (placed.cont wide more)
  · exact Chip.decoderOffers_of_accum accum

/-- DEC.TERM: the decode in progress ends with its value (R97). -/
theorem Chip.keepsDecodes_of_term (wide : 8 ≤ c.W) (placed : m.dec.HasPlaced sofar) (selected : m.decSelect = .term)
    (last : contBit m.inputs.inData = false) : m.KeepsDecodes sofar := by
  obtain ⟨transfer, noMark⟩ := Chip.tokTransfer_of_decSelect selected (.inr (.inl rfl))
  refine Chip.keepsDecodes_of_token transfer (by rw [Chip.afterDec, selected]) ?_ ?_ <;>
    rw [tokRead_of_byte (noMark nofun), decodesOf_term _ _ last]
  · exact Decoder.tracks_of_result rfl
  · rw [Chip.decoderOffers_of_result rfl, ← placed.resOffered_of_term wide last]
    rfl

/-- DEC.EOS: the decode in progress ends with the error (R98). -/
theorem Chip.keepsDecodes_of_eos (placed : m.dec.HasPlaced sofar) (selected : m.decSelect = .eos)
    (mark : m.inputs.inEos = true) : m.KeepsDecodes sofar := by
  obtain ⟨transfer, -⟩ := Chip.tokTransfer_of_decSelect selected (.inr (.inr rfl))
  refine Chip.keepsDecodes_of_token transfer (by rw [Chip.afterDec, selected]) ?_ ?_ <;>
    rw [tokRead_of_eos mark, decodesOf_eos]
  · exact Decoder.tracks_of_result rfl
  · rw [Chip.decoderOffers_of_result rfl, ← placed.resOffered_of_eos]
    rfl

/-- DEC.RETIRE: the result offered is delivered (R99). -/
theorem Chip.keepsDecodes_of_retire (result : m.dec.state = .result) (tracks : m.dec.Tracks sofar)
    (selected : m.decSelect = .retire) : m.KeepsDecodes sofar := by
  have after : m.afterDec = (m.resWrite (resOffered m.dec)).setDec (Decoder.atReset c.W) := by
    rw [Chip.afterDec, selected]
    rfl
  rw [Chip.KeepsDecodes, Chip.tokenNow, Chip.tokTransfer_of_result result, after, Chip.decoderOffers_of_result result,
    tracks.result result]
  exact ⟨Decoder.tracks_of_accum rfl (Decoder.atReset_hasPlaced c.W), rfl⟩

/-- Every cycle without reset, waits and holds included, keeps the account (R102). -/
theorem Chip.keepsDecodes (wide : 8 ≤ c.W) (rst : m.inputs.rst = false) (tracks : m.dec.Tracks sofar) :
    m.KeepsDecodes sofar := by
  cases state : m.dec.state
  case accum =>
    have placed := tracks.accum state
    cases valid : m.inputs.inValid
    case false =>
      have selected : m.decSelect = .wait := by rw [Chip.decSelect_of_accum rst state, valid]; rfl
      exact Chip.keepsDecodes_of_same tracks (by rw [Chip.afterDec, selected]) (by simp [Chip.tokTransfer, valid])
    cases mark : m.inputs.inEos
    case true => exact Chip.keepsDecodes_of_eos placed (Chip.decSelect_of_eos rst state valid mark) mark
    have selected := Chip.decSelect_of_byte rst state valid mark
    cases flag : contBit m.inputs.inData <;> rw [flag] at selected
    · exact Chip.keepsDecodes_of_term wide placed selected flag
    · exact Chip.keepsDecodes_of_cont wide state placed selected flag
  case result =>
    have selected := Chip.decSelect_of_result rst state
    cases ready : m.inputs.resReady <;> rw [ready] at selected
    · exact Chip.keepsDecodes_of_same tracks (by rw [Chip.afterDec, selected]; rfl) (Chip.tokTransfer_of_result state)
    · exact Chip.keepsDecodes_of_retire state tracks selected

/-- Along a run without reset the account is kept. -/
theorem FreeRun.keepsDecodes {n : Nat} (wide : 8 ≤ c.W) (run : FreeRun noReset n m t) (tracks : m.dec.Tracks sofar) :
    ∃ ts : List Token, t.chan.tok = m.chan.tok ++ ts ∧ t.dec.Tracks (decodesOf c.W sofar ts).2 ∧
      t.chan.res ++ t.decoderOffers = m.chan.res ++ m.decoderOffers ++ (decodesOf c.W sofar ts).1 := by
  induction run with
  | start => exact ⟨[], (List.append_nil _).symm, tracks, (List.append_nil _).symm⟩
  | @cycle n m u t p _ noRst now ih =>
    obtain ⟨ts, tokU, tracksU, sumU⟩ := ih tracks
    obtain ⟨dec, tok, res⟩ := step_next_decoder now
    obtain ⟨tracksT, sumT⟩ := Chip.keepsDecodes (m := u.setInputs p) wide noRst tracksU
    refine ⟨ts ++ (u.setInputs p).tokenNow, ?_, ?_, ?_⟩
    · rw [tok, Chip.afterDec_tok, Chip.setInputs_chan, tokU, List.append_assoc]
      rfl
    · rw [decodesOf_append, dec]
      exact tracksT
    · rw [decodesOf_append, res, Chip.decoderOffers_congr dec, sumT, ← List.append_assoc, ← sumU]
      rfl

/-- Settles O51: an idle decoder tracks the empty decode, and every cycle keeps the account of results and tokens. -/
theorem deliveredResultsAreTheDecodedTokens : Obligations.DeliveredResultsAreTheDecodedTokens := by
  intro c n m t wide run idle
  have tracks : m.dec.Tracks [] := by
    rw [idle]
    exact Decoder.tracks_of_accum rfl (Decoder.atReset_hasPlaced c.W)
  obtain ⟨ts, tok, tracksT, sum⟩ := run.keepsDecodes wide tracks
  rw [Chip.decoderOffers_of_accum (m := m) (by rw [idle]; rfl), List.append_nil] at sum
  exact ⟨ts, tok, sum, fun accum => (tracksT.accum accum).position⟩

end Sys2Proof.Machine
end

section
/-! ## Proofs, 70_reset_and_hazards.md: a cycle with reset (R140) -/

namespace Sys2Proof.Machine

variable {c : Config} {m : Chip c}

theorem Chip.encSelect_of_rst (rst : m.inputs.rst = true) : m.encSelect = .reset := by
  rw [Chip.encSelect_eq, if_pos rst]

theorem Chip.decSelect_of_rst (rst : m.inputs.rst = true) : m.decSelect = .reset := by
  rw [Chip.decSelect_eq, if_pos rst]

/-- In a reset cycle the encoder writes its reset values and leaves its channels as they are. -/
theorem Chip.afterEnc_of_rst (rst : m.inputs.rst = true) : m.afterEnc = m.setEnc (Encoder.atReset c.W) := by
  rw [Chip.afterEnc, Chip.encSelect_of_rst rst]

/-- In a reset cycle the decoder writes its reset values and leaves its channels as they are. -/
theorem Chip.afterDec_of_rst (rst : m.inputs.rst = true) : m.afterDec = m.setDec (Decoder.atReset c.W) := by
  rw [Chip.afterDec, Chip.decSelect_of_rst rst]

/-- A reset cycle is both agents' resets and the end of the cycle. -/
theorem step_eq_of_rst (supported : c.supported = true) (rst : m.inputs.rst = true) :
    step ⟨c, m⟩ =
      .next ⟨c, ((m.setEnc (Encoder.atReset c.W)).setDec (Decoder.atReset c.W)).endCycle m.transfers⟩ := by
  have rstAfterEnc : (m.setEnc (Encoder.atReset c.W)).inputs.rst = true := rst
  rw [step_eq m supported, Chip.afterEnc_of_rst rst, Chip.afterDec_of_rst rstAfterEnc]

/-- Settles O9: `rst = 1` selects both resets, and neither they nor the end of the cycle write a channel record. -/
theorem resetCycleGivesTheIdleState : Obligations.ResetCycleGivesTheIdleState := by
  intro c m wide rst
  have supported := (Config.supported_iff c).2 wide
  exact ⟨encOperation_selected _ supported (Chip.encSelect_of_rst rst),
    decOperation_selected _ supported (Chip.decSelect_of_rst rst),
    _, step_eq_of_rst supported rst, rfl, rfl, rfl⟩

end Sys2Proof.Machine
end
